-- ==== Sys2Proof/Word.lean ====
section
/-! DEFINITION. Words and value sets of the line-code encoder: the widths of 00_scope.md R9 and the
values of R12 (bits, levels, polarities) and 30_encoding.md R55 (outcomes). -/

namespace Sys2Proof

/-- A one-bit value: a register bit, an input `first` or `bit`, an input bit `b_t` (R12). -/
abbrev Bit := BitVec 1

/-- One input character, `CHAR_W = 8` (R9). -/
abbrev Byte := BitVec 8

/-- The 2-bit code of a level, `LEVEL_W = 2` (R9, R47). -/
abbrev LevelCode := BitVec 2

/-- The request word `REQ`, `REQ_W = 87` (R9, R48). -/
abbrev ReqWord := BitVec 87

/-- The response word `RESP`, `RESP_W = 57` (R9, R54). -/
abbrev RespWord := BitVec 57

/-- A level is one of the integers `-1`, `0`, `+1` (R12). -/
inductive Level where
  | minusOne
  | zero
  | plusOne
deriving DecidableEq, Repr

/-- The sign of a non-zero level (Glossary: Polarity); `0` is never a polarity (R23). -/
inductive Polarity where
  | minus
  | plus
deriving DecidableEq, Repr

/-- The outcome of a request (R55). -/
inductive Status where
  | ok
  | invalidInput
  | unknownScheme
deriving DecidableEq, Repr

end Sys2Proof
end

