-- ==== Sys2Proof/Config.lean ====
section
/-! DEFINITION. What is fixed for the machine: the parameters of 00_scope.md R8 and R9, and the one open
parameter, `LATENCY` (R10, R126), which has no body: no rule depends on it. -/

namespace Sys2Proof

/-- `MIN_LEN` (R8). -/
abbrev Config.minLen : Nat := 1

/-- `MAX_LEN` (R8). -/
abbrev Config.maxLen : Nat := 10

/-- `MAX_LEVELS`, the level slots of a response (R9). -/
abbrev Config.maxLevels : Nat := 2 * Config.maxLen

/-- `SCHEME_W` (R9). -/
abbrev Config.schemeWidth : Nat := 3

/-- `REQ_W` (R9): the width of the dispatcher's request port. -/
abbrev Config.requestWidth : Nat := 87

/-- The width of an encoder block's input pair `{first, bit}` (R59). -/
abbrev Config.stepWidth : Nat := 2

/-- `LATENCY` of an `ENCODE`, which may depend on `LEN` (R10, R126; log 1). -/
opaque Config.encodeLatency : Nat → Nat

/-- `LATENCY` of a `STEP` (R10, R126; log 1). -/
opaque Config.stepLatency : Nat

/-- `LATENCY` of a `RESET` (R10, R126; log 1). -/
opaque Config.resetLatency : Nat

end Sys2Proof
end

