-- ==== Sys2Proof/Syntax.lean ====
section
/-! DEFINITION. The operation set (00_scope.md R3): one constructor of Instr per row of opcode_table.json;
the ports an operation is issued at (30_encoding.md R63); the words that stand there; the text forms (R62). -/

namespace Sys2Proof

/-- The fixed closed set of six schemes (R4), in the order of their codes (R49). Each scheme has one
encoder block (R2), so a block is named by its scheme: `.nrzL` is `nrz_l_encoder`, and so on. -/
inductive Scheme where
  | nrzL
  | nrzI
  | bipolarAMI
  | pseudoternary
  | manchester
  | differentialManchester
deriving DecidableEq, Repr

/-- The operand fields of a request: `REQ.LEN` and `REQ.CHAR[0..9]`, leftmost character first (R48, R35).
WellFormed asks for ten characters. -/
structure BitString where
  len : BitVec 4
  chars : List Byte
deriving DecidableEq, Repr

/-- The operations, one per row of opcode_table.json (R63). -/
inductive Instr where
  /-- ENCODE_NRZ_L, `SCHEME = 000` (R77). -/
  | encodeNrzL (str : BitString)
  /-- ENCODE_NRZ_I, `SCHEME = 001` (R78). -/
  | encodeNrzI (str : BitString)
  /-- ENCODE_AMI, `SCHEME = 010` (R79). -/
  | encodeAmi (str : BitString)
  /-- ENCODE_PT, `SCHEME = 011` (R80). -/
  | encodePt (str : BitString)
  /-- ENCODE_MAN, `SCHEME = 100` (R81). -/
  | encodeMan (str : BitString)
  /-- ENCODE_DM, `SCHEME = 101` (R82). -/
  | encodeDm (str : BitString)
  /-- ENCODE_RESERVED_110: a request whose scheme code is `110` (R49, R104). -/
  | encodeReserved110 (str : BitString)
  /-- ENCODE_RESERVED_111: a request whose scheme code is `111` (R49, R104). -/
  | encodeReserved111 (str : BitString)
  /-- STEP_NRZ_L (R86). -/
  | stepNrzL (first bit : Bit)
  /-- STEP_NRZ_I (R88). -/
  | stepNrzI (first bit : Bit)
  /-- STEP_AMI (R91). -/
  | stepAmi (first bit : Bit)
  /-- STEP_PT (R93). -/
  | stepPt (first bit : Bit)
  /-- STEP_MAN (R95). -/
  | stepMan (first bit : Bit)
  /-- STEP_DM (R97). -/
  | stepDm (first bit : Bit)
  /-- RESET (R118). -/
  | reset
deriving DecidableEq, Repr

/-- Where an operation is issued (R63): the dispatcher's request port, a standalone encoder block, the
reset input. -/
inductive Port where
  | request
  | encoder (block : Scheme)
  | resetInput
deriving DecidableEq, Repr

/-- An operation as it is issued: a port and the word that stands there (R48, R59). -/
inductive Issue where
  /-- `ENCODE` with this request word. -/
  | request (req : ReqWord)
  /-- `STEP` of this block, with the input pair `{first, bit}`. -/
  | step (block : Scheme) (inputs : BitVec 2)
  /-- The reset input is asserted. -/
  | reset
deriving DecidableEq, Repr

/-- Why bits given to a port are no word of that port. -/
inductive DecodeReject where
  /-- A port takes words of exactly one width (R61: one 87-bit word; R59: two bits); another number of
  bits was given. -/
  | wrongWidth
  /-- A bit is set above the width that was given. -/
  | bitsAboveWidth
deriving DecidableEq, Repr

/-- The textual forms of operations (R62). -/
inductive AsmOp where
  /-- `ENCODE <scheme>, "<string>"`. -/
  | encode (scheme : Scheme) (text : List Char)
  /-- `ENCODE.raw <hex>`. -/
  | encodeRaw (req : ReqWord)
  /-- `STEP <block>, first=<0|1>, bit=<0|1>`. -/
  | step (block : Scheme) (first bit : Bit)
  /-- `RESET`. -/
  | reset
deriving DecidableEq, Repr

end Sys2Proof
end

