-- ==== Sys2Proof/WellFormed.lean ====
section
/-! DEFINITION. Which terms of Instr are operations of the hardware. The one check: a request word has
exactly ten character slots (30_encoding.md R48). Every value of every field is legal as an encoding:
an illegal LEN, character or scheme code is an outcome, not an ill-formed request (R60). -/

namespace Sys2Proof

/-- `REQ` holds exactly `MAX_LEN` character slots (R48). -/
def BitString.WellFormed (str : BitString) : Bool :=
  str.chars.length == Config.maxLen

/-- The operations the hardware can be given. -/
def Instr.WellFormed : Instr → Bool
  | .encodeNrzL str => str.WellFormed
  | .encodeNrzI str => str.WellFormed
  | .encodeAmi str => str.WellFormed
  | .encodePt str => str.WellFormed
  | .encodeMan str => str.WellFormed
  | .encodeDm str => str.WellFormed
  | .encodeReserved110 str => str.WellFormed
  | .encodeReserved111 str => str.WellFormed
  | .stepNrzL _ _ => true
  | .stepNrzI _ _ => true
  | .stepAmi _ _ => true
  | .stepPt _ _ => true
  | .stepMan _ _ => true
  | .stepDm _ _ => true
  | .reset => true

end Sys2Proof
end

