-- ==== Sys2Proof/Decode.lean ====
section
/-! DEFINITION. The decoder, total on any bits at any port, rejecting by name; then the encoder, written
from the same tables (30_encoding.md R48, R49, R59, R63); then the text forms (R62). -/

namespace Sys2Proof

/-- `REQ.SCHEME = REQ[2:0]` (R48). -/
def reqScheme (req : ReqWord) : BitVec 3 := req.extractLsb' 0 3

/-- `REQ.LEN = REQ[6:3]` (R48). -/
def reqLen (req : ReqWord) : BitVec 4 := req.extractLsb' 3 4

/-- `REQ.CHAR[k] = REQ[14 + 8k : 7 + 8k]` (R48). -/
def reqChar (req : ReqWord) (k : Nat) : Byte := req.extractLsb' (7 + 8 * k) 8

/-- The operand fields of a request word, all ten character slots of it (R48). -/
def reqString (req : ReqWord) : BitString :=
  { len := reqLen req, chars := (List.range Config.maxLen).map (reqChar req) }

/-- A request word is decoded by `REQ[2:0]` alone (R49, R63). -/
def decodeRequest (req : ReqWord) : Instr :=
  let str := reqString req
  match (reqScheme req).toNat with
  | 0 => .encodeNrzL str
  | 1 => .encodeNrzI str
  | 2 => .encodeAmi str
  | 3 => .encodePt str
  | 4 => .encodeMan str
  | 5 => .encodeDm str
  | 6 => .encodeReserved110 str
  | _ => .encodeReserved111 str

/-- `first` of an input pair `{first, bit}`: bit 1 (R59, R11). -/
def pairFirst (inputs : BitVec 2) : Bit := inputs.extractLsb' 1 1

/-- `bit` of an input pair `{first, bit}`: bit 0 (R59, R11). -/
def pairBit (inputs : BitVec 2) : Bit := inputs.extractLsb' 0 1

/-- A STEP is selected by the block it is issued to, not by any bit pattern (R63). -/
def decodeStep (block : Scheme) (inputs : BitVec 2) : Instr :=
  match block with
  | .nrzL => .stepNrzL (pairFirst inputs) (pairBit inputs)
  | .nrzI => .stepNrzI (pairFirst inputs) (pairBit inputs)
  | .bipolarAMI => .stepAmi (pairFirst inputs) (pairBit inputs)
  | .pseudoternary => .stepPt (pairFirst inputs) (pairBit inputs)
  | .manchester => .stepMan (pairFirst inputs) (pairBit inputs)
  | .differentialManchester => .stepDm (pairFirst inputs) (pairBit inputs)

/-- The decoder (R63). Every issued word is some operation. -/
def decode : Issue → Instr
  | .request req => decodeRequest req
  | .step block inputs => decodeStep block inputs
  | .reset => .reset

/-- The width of a port's word: 87 bits of request (R61), the pair `{first, bit}` (R59), nothing (R63). -/
def portWidth : Port → Nat
  | .request => Config.requestWidth
  | .encoder _ => Config.stepWidth
  | .resetInput => 0

/-- `nbits` bits of value `w` given to a port, as a word of that port; refused by name if they are none. -/
def readIssue (port : Port) (nbits w : Nat) : Except DecodeReject Issue :=
  if nbits ≠ portWidth port then .error .wrongWidth
  else if 2 ^ nbits ≤ w then .error .bitsAboveWidth
  else match port with
    | .request => .ok (.request (BitVec.ofNat 87 w))
    | .encoder block => .ok (.step block (BitVec.ofNat 2 w))
    | .resetInput => .ok .reset

/-- The decoder on any bits at any port. -/
def decodeBits (port : Port) (nbits w : Nat) : Except DecodeReject Instr :=
  (readIssue port nbits w).map decode

/-- The operation a table word stands for. The table numbers the bits of a request word, so the word is
given to the request port; a row without any bit (RESET) is the reset input. The STEP rows have no fixed
bits: their words are told from a request's only by the block they are issued to (R63; log 8). -/
def decodeTableWord (nbits w : Nat) : Option Instr :=
  let port := if nbits = 0 then Port.resetInput else Port.request
  match decodeBits port (portWidth port) (w % 2 ^ nbits) with
  | .ok i => some i
  | .error _ => none

/-! The encoder. -/

/-- The scheme codes, in the order the source lists the schemes (R49). -/
def schemeCode : Scheme → BitVec 3
  | .nrzL => 0b000#3
  | .nrzI => 0b001#3
  | .bipolarAMI => 0b010#3
  | .pseudoternary => 0b011#3
  | .manchester => 0b100#3
  | .differentialManchester => 0b101#3

/-- The ten character slots as one field, `CHAR[0]` lowest (R48). -/
def packChars : List Byte → BitVec 80
  | [] => 0#80
  | c :: cs => (packChars cs <<< 8) ||| c.setWidth 80

/-- The request word of a scheme code and its operand fields (R48). -/
def encodeRequest (code : BitVec 3) (str : BitString) : ReqWord :=
  packChars str.chars ++ str.len ++ code

/-- The input pair `{first, bit}` (R59). -/
def encodePair (first bit : Bit) : BitVec 2 := first ++ bit

/-- The word of an operation and the port it is issued at. -/
def encode : Instr → Issue
  | .encodeNrzL str => .request (encodeRequest (schemeCode .nrzL) str)
  | .encodeNrzI str => .request (encodeRequest (schemeCode .nrzI) str)
  | .encodeAmi str => .request (encodeRequest (schemeCode .bipolarAMI) str)
  | .encodePt str => .request (encodeRequest (schemeCode .pseudoternary) str)
  | .encodeMan str => .request (encodeRequest (schemeCode .manchester) str)
  | .encodeDm str => .request (encodeRequest (schemeCode .differentialManchester) str)
  | .encodeReserved110 str => .request (encodeRequest 0b110#3 str)
  | .encodeReserved111 str => .request (encodeRequest 0b111#3 str)
  | .stepNrzL first bit => .step .nrzL (encodePair first bit)
  | .stepNrzI first bit => .step .nrzI (encodePair first bit)
  | .stepAmi first bit => .step .bipolarAMI (encodePair first bit)
  | .stepPt first bit => .step .pseudoternary (encodePair first bit)
  | .stepMan first bit => .step .manchester (encodePair first bit)
  | .stepDm first bit => .step .differentialManchester (encodePair first bit)
  | .reset => .reset

/-- The port an issued word stands at. -/
def issuePort : Issue → Port
  | .request _ => .request
  | .step block _ => .encoder block
  | .reset => .resetInput

/-- The value of an issued word. -/
def issueWord : Issue → Nat
  | .request req => req.toNat
  | .step _ inputs => inputs.toNat
  | .reset => 0

/-! The text forms (R62). -/

/-- A printable character of the text form and its ASCII code (R51, R62; log 15). -/
def asmChar (c : Char) : Option Byte :=
  if 0x20 ≤ c.toNat ∧ c.toNat ≤ 0x7e then some (BitVec.ofNat 8 c.toNat) else none

/-- The character slots of a text: its codes, then `0x00` up to ten (R62). -/
def asmSlots (codes : List Byte) : List Byte :=
  codes ++ List.replicate (Config.maxLen - codes.length) 0x00#8

/-- `ENCODE <scheme>, "<string>"`: the string's length, its codes, `0x00` beyond (R62). A string of no
character or of more than ten has no text form. -/
def asmEncode (scheme : Scheme) (text : List Char) : Option ReqWord :=
  match text.mapM asmChar with
  | none => none
  | some codes =>
    if Config.minLen ≤ codes.length ∧ codes.length ≤ Config.maxLen then
      some (encodeRequest (schemeCode scheme)
        { len := BitVec.ofNat 4 codes.length, chars := asmSlots codes })
    else none

/-- The word a text form assembles to (R62). -/
def assemble : AsmOp → Option Issue
  | .encode scheme text => (asmEncode scheme text).map .request
  | .encodeRaw req => some (.request req)
  | .step block first bit => some (.step block (encodePair first bit))
  | .reset => some .reset

end Sys2Proof
end

