-- ==== Sys2Proof/Machine/State.lean ====
section
/-! DEFINITION. The state of the machine (10_state.md R15), what the host reads of a standalone block
(30_encoding.md R59), what the host does next (20_memory.md R41), and the reasons a step can stop. -/

namespace Sys2Proof.Machine

/-- The registers of a set of six encoder blocks (R15); `nrz_l_encoder` and `manchester_encoder` have
none (R25). -/
structure EncoderRegs where
  /-- `nrzi_last`, the previous emitted level as a bit (R21). -/
  nrziLast : Bit
  /-- `ami_pol`, `0` for polarity -1 and `1` for +1 (R23). -/
  amiPol : Bit
  /-- `pt_pol`, encoded as `ami_pol` (R24). -/
  ptPol : Bit
  /-- `dm_last`, the previous final sub-level as a bit (R22). -/
  dmLast : Bit
deriving DecidableEq, Repr

/-- The two outputs of one encoder step: first-half and second-half sub-level (R59). -/
structure SubLevels where
  l0 : LevelCode
  l1 : LevelCode
deriving DecidableEq, Repr

/-- The outputs `l0`, `l1` of each standalone block, as the host reads them until that block's next
operation (R33, R39, R127; log 3). -/
structure OutputPorts where
  nrzL : SubLevels
  nrzI : SubLevels
  ami : SubLevels
  pt : SubLevels
  man : SubLevels
  dm : SubLevels
deriving DecidableEq, Repr

/-- What the host does at one moment (R33). -/
inductive HostAction where
  /-- Puts a word on the `REQ` lines without issuing anything (R39, R122). -/
  | presentReq (req : ReqWord)
  /-- Issues `ENCODE`; the dispatcher reads the `REQ` lines once, now (R38, R122). -/
  | encode
  /-- Drives `{first, bit}` of a standalone block and issues `STEP` (R59). -/
  | step (block : Scheme) (inputs : BitVec 2)
  /-- Asserts `RESET` between operations (R120). -/
  | reset
  /-- Issues `ENCODE` and asserts `RESET` before it has completed (R120; log 7). -/
  | resetDuringEncode
  /-- Issues `ENCODE` and issues another to the same dispatcher before it has completed (R123; log 7). -/
  | encodeOverlapped
deriving DecidableEq, Repr

/-- The state: the registers of R15, the outputs of the standalone blocks, and the model's own two
fields for the outside world, `reqLines` (log 6) and `host` (log 5). -/
structure State where
  /-- The registers of the standalone encoder blocks (R15). -/
  standalone : EncoderRegs
  /-- The outputs of the standalone encoder blocks (R59). -/
  ports : OutputPorts
  /-- The registers of the dispatcher's private encoder instances (R28). -/
  instances : EncoderRegs
  /-- `RESP` (R26). -/
  resp : RespWord
  /-- `DONE` (R27). -/
  done : Bit
  /-- What the host holds on the `REQ` lines: an input, not state of the hardware (R15; log 6). -/
  reqLines : ReqWord
  /-- What the host does next, oldest first: the model's input (R41; log 5). -/
  host : List HostAction
deriving DecidableEq, Repr

/-- The reset values of the encoder registers (R21 to R24, R118). -/
def EncoderRegs.reset : EncoderRegs :=
  { nrziLast := 0#1, amiPol := 0#1, ptPol := 0#1, dmLast := 1#1 }

/-- The outputs of the standalone blocks before any STEP: DESIGN CHOICE, unsafe; the spec gives no value
(log 3). -/
def OutputPorts.initial : OutputPorts :=
  { nrzL := ⟨0#2, 0#2⟩, nrzI := ⟨0#2, 0#2⟩, ami := ⟨0#2, 0#2⟩,
    pt := ⟨0#2, 0#2⟩, man := ⟨0#2, 0#2⟩, dm := ⟨0#2, 0#2⟩ }

/-- The machine right after reset (R118): no operation issued yet, nothing on the `REQ` lines. -/
def State.reset : State :=
  { standalone := EncoderRegs.reset
    ports := OutputPorts.initial
    instances := EncoderRegs.reset
    resp := 0#57
    done := 0#1
    reqLines := 0#87
    host := [] }

/-- Faults: none. The hardware raises no exception, trap or fault and never stops on a bad request
(R102); its two failures are responses (R103; log 12). -/
inductive Fault where
deriving DecidableEq, Repr

/-- Why a step has no meaning. -/
inductive Refusal where
  /-- Raised by the arm of `exec` of an instruction that has no meaning yet; no arm is one. Safe. -/
  | notModelled (mnemonic : String)
  /-- Raised by `step` when the host issues an `ENCODE` before the dispatcher's previous one has
  completed: the spec's model "has no meaning for overlapping requests to one instance and refuses them"
  (R123, I6). Safe: no claim can be proved of what follows. -/
  | overlappingEncode
deriving DecidableEq, Repr

end Sys2Proof.Machine
end

