-- ==== Sys2Proof/Machine/Operands.lean ====
section
/-! DEFINITION. Operands and fields: the characters and bits of a request (30_encoding.md R50 to R53), level
codes and polarities (R47, 10_state.md R23), and the fields of a response word (R54). -/

namespace Sys2Proof.Machine

/-! Requests. -/

/-- `REQ.CHAR[t]` of a request's operand fields. A slot that a term lacks reads `0x00`, a non-binary
character; decoded requests lack none (log 9). -/
def charAt (str : BitString) (t : Nat) : Byte := str.chars.getD t 0x00#8

/-- `0x30` is the character `0` and `0x31` is the character `1`; every other code is non-binary (R51). -/
def isBinaryChar (c : Byte) : Bool := c == 0x30#8 || c == 0x31#8

/-- `LenOK` (R65). -/
def lenOK (str : BitString) : Bool :=
  decide (Config.minLen ≤ str.len.toNat) && decide (str.len.toNat ≤ Config.maxLen)

/-- `CharsOK` (R65): only the slots below `LEN` are checked (R53). -/
def charsOK (str : BitString) : Bool :=
  lenOK str && (List.range str.len.toNat).all fun t => isBinaryChar (charAt str t)

/-- The input bit `b_t = CHAR[t][0]` (R52). -/
def inputBit (str : BitString) (t : Nat) : Bit := (charAt str t).extractLsb' 0 1

/-- The input bits `b_0, ..., b_(LEN-1)`, left to right (R35, R52). -/
def inputBits (str : BitString) : List Bit :=
  (List.range str.len.toNat).map (inputBit str)

/-! Levels and polarities. -/

/-- The code of a level: its 2-bit two's complement (R47). -/
def levelCode : Level → LevelCode
  | .zero => 0b00#2
  | .plusOne => 0b01#2
  | .minusOne => 0b11#2

/-- The level of a code; `10` is none (R47). -/
def levelOfCode (c : LevelCode) : Option Level :=
  if c = 0b00#2 then some .zero
  else if c = 0b01#2 then some .plusOne
  else if c = 0b11#2 then some .minusOne
  else none

/-- The level of a one-bit value of a binary scheme: `1` is `+1` (R12, R21). -/
def bitLevel (b : Bit) : Level := if b = 1#1 then .plusOne else .zero

/-- `code(b)` of a one-bit level (R86, R88, R95, R97). -/
def bitCode (b : Bit) : LevelCode := levelCode (bitLevel b)

/-- `pol`: the polarity a register bit stands for (R23, R91). -/
def polarityOf (b : Bit) : Polarity := if b = 1#1 then .plus else .minus

/-- `enc`, the inverse of `pol` (R91). -/
def polarityBit : Polarity → Bit
  | .minus => 0#1
  | .plus => 1#1

/-- `-p` (R91). -/
def flipPolarity : Polarity → Polarity
  | .minus => .plus
  | .plus => .minus

/-- The level a polarity is emitted as (R91, R93). -/
def polarityLevel : Polarity → Level
  | .minus => .minusOne
  | .plus => .plusOne

/-! Response fields (R54). -/

/-- The two slots of each bit in order: `LEVEL[2t] = l0`, `LEVEL[2t + 1] = l1` (R57, R69). -/
def levelSlots (outs : List SubLevels) : List LevelCode :=
  outs.flatMap fun o => [o.l0, o.l1]

/-- Twenty level slots as one field, `LEVEL[0]` lowest, `00` where the list gives none (R54, R69). -/
def packLevels : List LevelCode → BitVec 40
  | [] => 0#40
  | c :: cs => (packLevels cs <<< 2) ||| c.setWidth 40

/-- Ten echoed bits as one field, `BITS[0]` lowest, `0` where the list gives none (R54, R70). -/
def packBits : List Bit → BitVec 10
  | [] => 0#10
  | b :: bs => (packBits bs <<< 1) ||| b.setWidth 10

/-- A response word, `STATUS` lowest (R54). -/
def packResponse (bits : BitVec 10) (levels : BitVec 40) (count : BitVec 5) (status : BitVec 2) :
    RespWord :=
  bits ++ levels ++ count ++ status

/-- `RESP.STATUS = RESP[1:0]` (R54). -/
def respStatus (r : RespWord) : BitVec 2 := r.extractLsb' 0 2

/-- `RESP.COUNT = RESP[6:2]` (R54). -/
def respCount (r : RespWord) : BitVec 5 := r.extractLsb' 2 5

/-- `RESP.LEVEL[k] = RESP[8 + 2k : 7 + 2k]` (R54). -/
def respLevel (r : RespWord) (k : Nat) : LevelCode := r.extractLsb' (7 + 2 * k) 2

/-- `RESP.BITS[t] = RESP[47 + t]` (R54). -/
def respBit (r : RespWord) (t : Nat) : Bit := r.extractLsb' (47 + t) 1

end Sys2Proof.Machine
end

