-- ==== Sys2Proof/Machine/Encoders.lean ====
section
/-! DEFINITION. The six state-transition functions `STEP_<enc>` (files 41 to 46), each transcribed from its
rule's pseudocode, and the run of one encoder over a bit sequence (40_line_code_dispatcher.md R68). -/

namespace Sys2Proof.Machine

/-- Both slots of a bit hold the one level of the bit (R86, R88, R91, R93). -/
def bothHalves (c : LevelCode) : SubLevels := ⟨c, c⟩

/-- `STEP_NRZ_L` (R86): `first` is ignored, there is no register. -/
def nrzLStep (_first bit : Bit) : SubLevels := bothHalves (bitCode bit)

/-- `STEP_NRZ_I` (R88): the new `nrzi_last` and the outputs. -/
def nrzIStep (first bit nrziLast : Bit) : Bit × SubLevels :=
  let level := if first = 1#1 then bit else nrziLast ^^^ bit
  (level, bothHalves (bitCode level))

/-- `STEP_AMI` (R91): the new `ami_pol` and the outputs. -/
def amiStep (first bit amiPol : Bit) : Bit × SubLevels :=
  let p := if first = 1#1 then Polarity.minus else polarityOf amiPol
  if bit = 1#1 then
    (polarityBit (flipPolarity p), bothHalves (levelCode (polarityLevel (flipPolarity p))))
  else
    (polarityBit p, bothHalves (levelCode .zero))

/-- `STEP_PT` (R93): the new `pt_pol` and the outputs. -/
def ptStep (first bit ptPol : Bit) : Bit × SubLevels :=
  let p := if first = 1#1 then Polarity.minus else polarityOf ptPol
  if bit = 0#1 then
    (polarityBit (flipPolarity p), bothHalves (levelCode (polarityLevel (flipPolarity p))))
  else
    (polarityBit p, bothHalves (levelCode .zero))

/-- `STEP_MAN` (R95): `first` is ignored, there is no register. -/
def manStep (_first bit : Bit) : SubLevels :=
  if bit = 1#1 then ⟨bitCode 1#1, bitCode 0#1⟩ else ⟨bitCode 0#1, bitCode 1#1⟩

/-- The two levels of `STEP_DM` as bits, by the formulas of R97, which win over the prose labels the
source writes beside them (90_conflicts.md C3). -/
def dmLevels (first bit dmLast : Bit) : Bit × Bit :=
  if first = 1#1 then
    if bit = 1#1 then (0#1, 1#1) else (1#1, 0#1)
  else
    if bit = 1#1 then (1#1 - dmLast, dmLast) else (dmLast, dmLast ^^^ 1#1)

/-- `STEP_DM` (R97): the new `dm_last` and the outputs. -/
def dmStep (first bit dmLast : Bit) : Bit × SubLevels :=
  let levels := dmLevels first bit dmLast
  (levels.2, ⟨bitCode levels.1, bitCode levels.2⟩)

/-- One step of the block of a scheme, on a set of encoder registers: that block's register alone may
change. -/
def encoderStep (block : Scheme) (first bit : Bit) (r : EncoderRegs) : EncoderRegs × SubLevels :=
  match block with
  | .nrzL => (r, nrzLStep first bit)
  | .nrzI =>
    let res := nrzIStep first bit r.nrziLast
    ({ r with nrziLast := res.1 }, res.2)
  | .bipolarAMI =>
    let res := amiStep first bit r.amiPol
    ({ r with amiPol := res.1 }, res.2)
  | .pseudoternary =>
    let res := ptStep first bit r.ptPol
    ({ r with ptPol := res.1 }, res.2)
  | .manchester => (r, manStep first bit)
  | .differentialManchester =>
    let res := dmStep first bit r.dmLast
    ({ r with dmLast := res.1 }, res.2)

/-- The run (R42, R68): one step per bit, left to right, each reading the register the one before wrote;
`first` marks the head of the list and no later bit. -/
def runEncoder (block : Scheme) : Bit → List Bit → EncoderRegs → EncoderRegs × List SubLevels
  | _, [], r => (r, [])
  | first, b :: bs, r =>
    let now := encoderStep block first b r
    let later := runEncoder block 0#1 bs now.1
    (later.1, now.2 :: later.2)

end Sys2Proof.Machine
end

