-- ==== Sys2Proof/Machine/Flags.lean ====
section
/-! DEFINITION. The hardware has no flags (10_state.md R19); what it reports is the STATUS and COUNT of a
response. This file holds the checks of a request (40_line_code_dispatcher.md R65, R66) and the two
forms of response (R64, 60_exceptions.md R103). -/

namespace Sys2Proof.Machine

/-- `Check`: `InvalidInput` takes priority over `UnknownScheme` (R66, R108). A scheme code is `some` of
the six or `none` of them (`SchemeOK`, R65). -/
def checkRequest (scheme : Option Scheme) (str : BitString) : Status :=
  if charsOK str = false then .invalidInput
  else if scheme = none then .unknownScheme
  else .ok

/-- The `STATUS` codes (R55). -/
def statusCode : Status → BitVec 2
  | .ok => 0b00#2
  | .invalidInput => 0b01#2
  | .unknownScheme => 0b10#2

/-- The outcome a `STATUS` code names; `11` is reserved (R55). -/
def statusOfCode (c : BitVec 2) : Option Status :=
  if c = 0b00#2 then some .ok
  else if c = 0b01#2 then some .invalidInput
  else if c = 0b10#2 then some .unknownScheme
  else none

/-- `COUNT = zext_5(2 * n)` (R56, R64). -/
def countField (len : BitVec 4) : BitVec 5 := BitVec.ofNat 5 (2 * len.toNat)

/-- The response of a successful request (R64, R69 to R71). -/
def okResponse (len : BitVec 4) (bits : List Bit) (outs : List SubLevels) : RespWord :=
  packResponse (packBits bits) (packLevels (levelSlots outs)) (countField len) (statusCode .ok)

/-- The response of a failed request: its code, and nothing else (R103). -/
def failedResponse (st : Status) : RespWord :=
  packResponse 0#10 0#40 0#5 (statusCode st)

end Sys2Proof.Machine
end

