-- ==== Sys2Proof/Machine/Ops.lean ====
section
/-! DEFINITION. The shared operations: the updates of State, the ENCODE transaction
(40_line_code_dispatcher.md R64), the failure of a request (60_exceptions.md R103), the STEP of a standalone
block, RESET (70_reset_and_hazards.md R118), and what the host does next. -/

namespace Sys2Proof.Machine

/-! Updates of State. -/

/-- `RESP <- r`, `DONE <- 1`: how every `ENCODE` ends (R26, R27, R72). -/
def State.answer (s : State) (r : RespWord) : State := { s with resp := r, done := 1#1 }

/-- The registers of the dispatcher's private encoder instances (R28). -/
def State.setInstances (s : State) (r : EncoderRegs) : State := { s with instances := r }

/-- The registers of the standalone blocks. -/
def State.setStandalone (s : State) (r : EncoderRegs) : State := { s with standalone := r }

/-- The outputs of the standalone blocks. -/
def State.setPorts (s : State) (p : OutputPorts) : State := { s with ports := p }

/-- The word the host holds on the `REQ` lines. -/
def State.setReqLines (s : State) (w : ReqWord) : State := { s with reqLines := w }

/-- What the host does next. -/
def State.setHost (s : State) (h : List HostAction) : State := { s with host := h }

/-- The outputs of one standalone block (R59). -/
def OutputPorts.get (p : OutputPorts) : Scheme → SubLevels
  | .nrzL => p.nrzL
  | .nrzI => p.nrzI
  | .bipolarAMI => p.ami
  | .pseudoternary => p.pt
  | .manchester => p.man
  | .differentialManchester => p.dm

/-- Writes the outputs of one standalone block (R59). -/
def OutputPorts.set (p : OutputPorts) (block : Scheme) (o : SubLevels) : OutputPorts :=
  match block with
  | .nrzL => { p with nrzL := o }
  | .nrzI => { p with nrzI := o }
  | .bipolarAMI => { p with ami := o }
  | .pseudoternary => { p with pt := o }
  | .manchester => { p with man := o }
  | .differentialManchester => { p with dm := o }

/-! The ENCODE transaction. -/

/-- `raise InvalidInput` / `raise UnknownScheme`: the error response, and nothing else is written (R103,
R106). There is no trap entry and no return (R109, R110). -/
def raiseFailure (st : Status) (s : State) : State := s.answer (failedResponse st)

/-- A request that passed the checks (R64): the selected private instance is stepped once per bit, the
response is assembled, and all writes take effect together (R38, R67 to R72). -/
def completeEncode (block : Scheme) (str : BitString) (s : State) : State :=
  let bits := inputBits str
  let run := runEncoder block 1#1 bits s.instances
  (s.setInstances run.1).answer (okResponse str.len bits run.2)

/-- `ENCODE` (R64) of a request whose scheme code selects an encoder instance, or none of the six. -/
def encodeTransaction (scheme : Option Scheme) (str : BitString) (s : State) : State :=
  match checkRequest scheme str, scheme with
  | .ok, some block => completeEncode block str s
  | st, _ => raiseFailure st s

/-! STEP and RESET. -/

/-- `STEP` of a standalone block (R59, R127): its register and its outputs. -/
def stepStandalone (block : Scheme) (first bit : Bit) (s : State) : State :=
  let res := encoderStep block first bit s.standalone
  (s.setStandalone res.1).setPorts (s.ports.set block res.2)

/-- `RESET` (R118): every register of R15, in every encoder instance, and nothing else; the outputs
`l0`, `l1` of the standalone blocks are no register of R15 and stay (DEDUCED, unsafe; log 4). -/
def resetRegisters (s : State) : State :=
  { s with
    standalone := EncoderRegs.reset
    instances := EncoderRegs.reset
    resp := 0#57
    done := 0#1 }

/-! What the host does next. -/

/-- What one step has before it. -/
inductive NextAction where
  /-- The host does nothing: the machine stays as it is (log 5). -/
  | idle
  /-- The host has changed its `REQ` lines; no operation. -/
  | presented (s : State)
  /-- An operation is issued, at this state. -/
  | issued (i : Issue) (s : State)
  /-- What the host does has no meaning. -/
  | refused (r : Refusal)
deriving DecidableEq, Repr

/-- Takes the host's next action, in issue order (R41). `ENCODE` reads the `REQ` lines once (R38, R122);
`RESET` during a transaction abandons it (R120); an `ENCODE` that overlaps another is refused (R123). -/
def nextAction (s : State) : NextAction :=
  match s.host with
  | [] => .idle
  | .presentReq w :: rest => .presented ((s.setHost rest).setReqLines w)
  | .encode :: rest => .issued (.request s.reqLines) (s.setHost rest)
  | .step block inputs :: rest => .issued (.step block inputs) (s.setHost rest)
  | .reset :: rest => .issued .reset (s.setHost rest)
  | .resetDuringEncode :: rest => .issued .reset (s.setHost rest)
  | .encodeOverlapped :: _ => .refused .overlappingEncode

/-- The state in which the host issues this next, before all else it does. -/
def placeIssue (s : State) : Issue → State
  | .request req => (s.setReqLines req).setHost (.encode :: s.host)
  | .step block inputs => s.setHost (.step block inputs :: s.host)
  | .reset => s.setHost (.reset :: s.host)

/-- The `LATENCY` of an operation (R10, R126): an open parameter that no rule depends on (log 1). -/
def latency : Instr → Nat
  | .encodeNrzL str | .encodeNrzI str | .encodeAmi str | .encodePt str | .encodeMan str
  | .encodeDm str | .encodeReserved110 str | .encodeReserved111 str =>
    Config.encodeLatency str.len.toNat
  | .stepNrzL _ _ | .stepNrzI _ _ | .stepAmi _ _ | .stepPt _ _ | .stepMan _ _ | .stepDm _ _ =>
    Config.stepLatency
  | .reset => Config.resetLatency

end Sys2Proof.Machine
end

