-- ==== Sys2Proof/Machine/Control.lean ====
section
/-! DEFINITION. The one control operation, RESET (70_reset_and_hazards.md R118, 60_exceptions.md R113). -/

namespace Sys2Proof.Machine

/-- RESET (R118): cannot fail. -/
def execReset (s : State) : Host.Outcome State Fault Refusal :=
  .next (resetRegisters s)

end Sys2Proof.Machine
end

