-- ==== Sys2Proof/Machine/Encode.lean ====
section
/-! DEFINITION. The eight ENCODE operations of the dispatcher (40_line_code_dispatcher.md R77 to R82,
60_exceptions.md R104): the transaction of R64 with the scheme code fixed. -/

namespace Sys2Proof.Machine

/-- ENCODE_NRZ_L (R77). -/
def execEncodeNrzL (str : BitString) (s : State) : Host.Outcome State Fault Refusal :=
  .next (encodeTransaction (some .nrzL) str s)

/-- ENCODE_NRZ_I (R78). -/
def execEncodeNrzI (str : BitString) (s : State) : Host.Outcome State Fault Refusal :=
  .next (encodeTransaction (some .nrzI) str s)

/-- ENCODE_AMI (R79). -/
def execEncodeAmi (str : BitString) (s : State) : Host.Outcome State Fault Refusal :=
  .next (encodeTransaction (some .bipolarAMI) str s)

/-- ENCODE_PT (R80). -/
def execEncodePt (str : BitString) (s : State) : Host.Outcome State Fault Refusal :=
  .next (encodeTransaction (some .pseudoternary) str s)

/-- ENCODE_MAN (R81). -/
def execEncodeMan (str : BitString) (s : State) : Host.Outcome State Fault Refusal :=
  .next (encodeTransaction (some .manchester) str s)

/-- ENCODE_DM (R82). -/
def execEncodeDm (str : BitString) (s : State) : Host.Outcome State Fault Refusal :=
  .next (encodeTransaction (some .differentialManchester) str s)

/-- ENCODE_RESERVED_110 (R104, R66): no encoder is selected; the response is a failure. -/
def execEncodeReserved110 (str : BitString) (s : State) : Host.Outcome State Fault Refusal :=
  .next (encodeTransaction none str s)

/-- ENCODE_RESERVED_111 (R104, R66): no encoder is selected; the response is a failure. -/
def execEncodeReserved111 (str : BitString) (s : State) : Host.Outcome State Fault Refusal :=
  .next (encodeTransaction none str s)

end Sys2Proof.Machine
end

