-- ==== Sys2Proof/Machine/EncoderStep.lean ====
section
/-! DEFINITION. The STEP operations of the six standalone encoder blocks (files 41 to 46). -/

namespace Sys2Proof.Machine

/-- STEP_NRZ_L (R86). -/
def execStepNrzL (first bit : Bit) (s : State) : Host.Outcome State Fault Refusal :=
  .next (stepStandalone .nrzL first bit s)

/-- STEP_NRZ_I (R88). -/
def execStepNrzI (first bit : Bit) (s : State) : Host.Outcome State Fault Refusal :=
  .next (stepStandalone .nrzI first bit s)

/-- STEP_AMI (R91). -/
def execStepAmi (first bit : Bit) (s : State) : Host.Outcome State Fault Refusal :=
  .next (stepStandalone .bipolarAMI first bit s)

/-- STEP_PT (R93). -/
def execStepPt (first bit : Bit) (s : State) : Host.Outcome State Fault Refusal :=
  .next (stepStandalone .pseudoternary first bit s)

/-- STEP_MAN (R95). -/
def execStepMan (first bit : Bit) (s : State) : Host.Outcome State Fault Refusal :=
  .next (stepStandalone .manchester first bit s)

/-- STEP_DM (R97). -/
def execStepDm (first bit : Bit) (s : State) : Host.Outcome State Fault Refusal :=
  .next (stepStandalone .differentialManchester first bit s)

end Sys2Proof.Machine
end

