-- ==== Sys2Proof/Machine/Dispatch.lean ====
section
/-! DEFINITION. One arm per constructor of Instr: each calls its own meaning. -/

namespace Sys2Proof.Machine

def exec (i : Instr) (s : State) : Host.Outcome State Fault Refusal :=
  match i with
  | .encodeNrzL str => Sys2Proof.Machine.execEncodeNrzL str s
  | .encodeNrzI str => Sys2Proof.Machine.execEncodeNrzI str s
  | .encodeAmi str => Sys2Proof.Machine.execEncodeAmi str s
  | .encodePt str => Sys2Proof.Machine.execEncodePt str s
  | .encodeMan str => Sys2Proof.Machine.execEncodeMan str s
  | .encodeDm str => Sys2Proof.Machine.execEncodeDm str s
  | .encodeReserved110 str => Sys2Proof.Machine.execEncodeReserved110 str s
  | .encodeReserved111 str => Sys2Proof.Machine.execEncodeReserved111 str s
  | .stepNrzL first bit => Sys2Proof.Machine.execStepNrzL first bit s
  | .stepNrzI first bit => Sys2Proof.Machine.execStepNrzI first bit s
  | .stepAmi first bit => Sys2Proof.Machine.execStepAmi first bit s
  | .stepPt first bit => Sys2Proof.Machine.execStepPt first bit s
  | .stepMan first bit => Sys2Proof.Machine.execStepMan first bit s
  | .stepDm first bit => Sys2Proof.Machine.execStepDm first bit s
  | .reset => Sys2Proof.Machine.execReset s

end Sys2Proof.Machine
end

