-- ==== Sys2Proof/Machine/Step.lean ====
section
/-! DEFINITION. One step of the machine: it takes the host's next action and, where that issues an
operation, runs the operation its word decodes to (20_memory.md R41, 30_encoding.md R63). -/

namespace Sys2Proof.Machine

/-- One step. With no action left the machine stays as it is (R127: there is no halt state; log 5). -/
def step (s : State) : Host.Outcome State Fault Refusal :=
  match nextAction s with
  | .idle => .next s
  | .presented s' => .next s'
  | .issued i s' => exec (decode i) s'
  | .refused r => .refused r

/-- The state in which a table word is what the host issues next: `ENCODE` with this word on the `REQ`
lines, or, for a row without any bit, `RESET` (as decodeTableWord reads the table; log 8). -/
def State.withFetchWord (s : State) (nbits w : Nat) : State :=
  if nbits = 0 then placeIssue s .reset
  else placeIssue s (.request (BitVec.ofNat 87 (w % 2 ^ nbits)))

end Sys2Proof.Machine
end

