-- ==== Sys2Proof/Machine/HostView.lean ====
section
/-! DEFINITION. What the host reads (10_state.md R33): RESP, DONE, l0 and l1, without side effect
(20_memory.md R39), and how a consumer reads a response word (00_scope.md R14, 30_encoding.md R47, R54
to R58), refusing what no response holds (93_implementation_defined.md I3, I4, I7). -/

namespace Sys2Proof.Machine

/-- Why a consumer reads no response. -/
inductive ConsumerRefusal where
  /-- `DONE = 0`: `RESP` is the reset value and not a response (R27, I7). -/
  | noResponse
  /-- `STATUS = 11` (R55, I4). -/
  | reservedStatus
  /-- `COUNT` odd, above 20, or 0 on `OK` (R56, I4; log 14). -/
  | illegalCount
  /-- The level code `10` in a slot below `COUNT` (R47, I3). -/
  | reservedLevel
deriving DecidableEq, Repr

/-- One level with its time position: sub-interval `half` of bit interval `bit`, the time
`[bit + half/2, bit + (half + 1)/2)` (R14). -/
structure LevelStep where
  bit : Nat
  half : Nat
  level : Level
deriving DecidableEq, Repr

/-- A response as its consumer reads it. -/
inductive ResponseView where
  /-- The level steps in time order and the echoed input bits (R57, R58). -/
  | encoded (steps : List LevelStep) (bits : List Bit)
  /-- A failure; nothing but its code is read (R103, D14). -/
  | failed (st : Status)
deriving DecidableEq, Repr

/-- The host's reading of `RESP` (R26, R33). -/
def readResp (s : State) : RespWord := s.resp

/-- The host's reading of `DONE` (R27, R33). -/
def readDone (s : State) : Bit := s.done

/-- The host's reading of `l0` and `l1` of a standalone block (R33, R59). -/
def readOutputs (s : State) (block : Scheme) : SubLevels := s.ports.get block

/-- Slot `k` of a response with its time position: bit `k div 2`, half `k mod 2` (R14, R57). -/
def levelStep (r : RespWord) (k : Nat) : Option LevelStep :=
  (levelOfCode (respLevel r k)).map fun l => { bit := k / 2, half := k % 2, level := l }

/-- A consumer's reading of a response word. -/
def consumeResponse (r : RespWord) : Except ConsumerRefusal ResponseView :=
  match statusOfCode (respStatus r) with
  | none => .error .reservedStatus
  | some .invalidInput => .ok (.failed .invalidInput)
  | some .unknownScheme => .ok (.failed .unknownScheme)
  | some .ok =>
    let n := (respCount r).toNat
    if n = 0 ∨ n % 2 = 1 ∨ Config.maxLevels < n then .error .illegalCount
    else match (List.range n).mapM (levelStep r) with
      | none => .error .reservedLevel
      | some steps => .ok (.encoded steps ((List.range (n / 2)).map (respBit r)))

/-- The host's reading of the last response: none while `DONE = 0` (R27, R121). -/
def readResponse (s : State) : Except ConsumerRefusal ResponseView :=
  if s.done = 0#1 then .error .noResponse else consumeResponse s.resp

end Sys2Proof.Machine
end

