-- ==== Sys2Proof/Safety.lean ====
section
/-! DEFINITION. What a safe run keeps: the response register and the outputs of the standalone blocks hold
only what the spec says is ever produced (30_encoding.md R47, R55 to R58; 10_state.md R27). -/

namespace Sys2Proof.Machine

/-- No slot of the word holds the reserved level code `10` (R47, R73). -/
def LevelsProduced (r : RespWord) : Prop := ∀ k < 20, respLevel r k ≠ 0b10#2

/-- A successful response (R56 to R58): an even count from 2 to 20, `00` in the slots beyond it, `0` in
the bits beyond it. -/
def OkWord (r : RespWord) : Prop :=
  respStatus r = 0b00#2 ∧
  2 ≤ (respCount r).toNat ∧ (respCount r).toNat ≤ 20 ∧ (respCount r).toNat % 2 = 0 ∧
  LevelsProduced r ∧
  (∀ k < 20, (respCount r).toNat ≤ k → respLevel r k = 0b00#2) ∧
  (∀ t < 10, (respCount r).toNat ≤ 2 * t → respBit r t = 0#1)

/-- A failed response: its code and nothing else (R103). -/
def FailedWord (r : RespWord) : Prop := r = 1#57 ∨ r = 2#57

/-- `RESP` and `DONE` agree (R27): a response once one has been produced, the reset value before. -/
def RespLegal (s : State) : Prop :=
  if s.done = 0#1 then s.resp = 0#57 else OkWord s.resp ∨ FailedWord s.resp

/-- No standalone block shows the reserved level code `10` (R47). -/
def PortsLegal (s : State) : Prop :=
  ∀ block, (readOutputs s block).l0 ≠ 0b10#2 ∧ (readOutputs s block).l1 ≠ 0b10#2

/-- The invariant every step keeps. -/
def Inv (s : State) : Prop := RespLegal s ∧ PortsLegal s

end Sys2Proof.Machine
end

