-- ==== Sys2Proof/Certificates/Slice0/Obligations.lean ====
section
/-! DEFINITION. The statements for the provers. They are written from the numbered rules of spec/ in a small
vocabulary of their own (namespace Sys2Proof.Stated), which reads a request and a response at the bit
positions of 30_encoding.md R48 and R54 and gives each scheme's levels in closed form. -/

namespace Sys2Proof.Stated

open Sys2Proof.Machine

/-! Requests. -/

/-- The length is 1 to 10 and every character below it is `0x30` or `0x31`: `CharsOK` (R65). -/
def LegalString (str : BitString) : Prop :=
  1 ≤ str.len.toNat ∧ str.len.toNat ≤ 10 ∧
    ∀ t < str.len.toNat, str.chars[t]? = some 0x30#8 ∨ str.chars[t]? = some 0x31#8

/-- The input bit `b_t`: `1` if `CHAR[t] = 0x31` (R52). -/
def bit (str : BitString) (t : Nat) : Bit := if str.chars[t]? = some 0x31#8 then 1#1 else 0#1

/-- The fields of a request word at the bit positions of R48. -/
def requestFields (req : ReqWord) : BitString :=
  { len := req.extractLsb' 3 4
    chars := [req.extractLsb' 7 8, req.extractLsb' 15 8, req.extractLsb' 23 8, req.extractLsb' 31 8,
      req.extractLsb' 39 8, req.extractLsb' 47 8, req.extractLsb' 55 8, req.extractLsb' 63 8,
      req.extractLsb' 71 8, req.extractLsb' 79 8] }

/-- The fields a text is assembled to: its length, its character codes, `0x00` up to ten slots (R62). -/
def textFields (text : List Char) : BitString :=
  { len := BitVec.ofNat 4 text.length
    chars := text.map (fun c => BitVec.ofNat 8 c.toNat) ++ List.replicate (10 - text.length) 0x00#8 }

/-- The same string with character `t` inverted: `0x30` and `0x31` differ in bit 0 (R51). -/
def flipChar (str : BitString) (t : Nat) : BitString :=
  { str with chars := str.chars.modify t (· ^^^ 0x01#8) }

/-- The same string with every character inverted. -/
def flipAll (str : BitString) : BitString := { str with chars := str.chars.map (· ^^^ 0x01#8) }

/-- How many of `b_0 ... b_(n-1)` are `1`. -/
def ones (str : BitString) : Nat → Nat
  | 0 => 0
  | n + 1 => ones str n + if bit str n = 1#1 then 1 else 0

/-- How many of `b_0 ... b_(n-1)` are `0`. -/
def zeros (str : BitString) : Nat → Nat
  | 0 => 0
  | n + 1 => zeros str n + if bit str n = 0#1 then 1 else 0

/-! Responses, at the bit positions of R54. -/

def status (r : RespWord) : BitVec 2 := r.extractLsb' 0 2
def count (r : RespWord) : BitVec 5 := r.extractLsb' 2 5
def level (r : RespWord) (k : Nat) : LevelCode := r.extractLsb' (7 + 2 * k) 2
def echo (r : RespWord) (t : Nat) : Bit := r.extractLsb' (47 + t) 1

/-- `r` is the successful response for `str` whose bit `t` has the sub-levels `lv t` (R57, R58, R69 to R71). -/
def Encodes (r : RespWord) (str : BitString) (lv : Nat → LevelCode × LevelCode) : Prop :=
  status r = 0b00#2 ∧
  (count r).toNat = 2 * str.len.toNat ∧
  (∀ t < str.len.toNat, level r (2 * t) = (lv t).1 ∧ level r (2 * t + 1) = (lv t).2) ∧
  (∀ k < 20, 2 * str.len.toNat ≤ k → level r k = 0b00#2) ∧
  (∀ t < 10, echo r t = if t < str.len.toNat then bit str t else 0#1)

/-! The levels of each scheme. -/

/-- `code` of a one-bit level (R47, R86). -/
def code (b : Bit) : LevelCode := if b = 1#1 then 0b01#2 else 0b00#2

/-- Both halves of a bit at one level. -/
def both (c : LevelCode) : LevelCode × LevelCode := (c, c)

/-- NRZ-I: `L_0 = b_0`, `L_t = L_(t-1) ⊕ b_t` (R78). -/
def nrziLevel (str : BitString) : Nat → Bit
  | 0 => bit str 0
  | t + 1 => nrziLevel str t ^^^ bit str (t + 1)

/-- Bipolar AMI: `0` for a `0`; the first `1`, the third, ... give `+1`, the others `-1` (R92). -/
def amiLevel (str : BitString) (t : Nat) : LevelCode :=
  if bit str t = 0#1 then 0b00#2 else if ones str t % 2 = 0 then 0b01#2 else 0b11#2

/-- Pseudoternary: the same with `0` and `1` exchanged (R94). -/
def ptLevel (str : BitString) (t : Nat) : LevelCode :=
  if bit str t = 1#1 then 0b00#2 else if zeros str t % 2 = 0 then 0b01#2 else 0b11#2

/-- Manchester: `(1, 0)` for `1` and `(0, 1)` for `0` (R81). -/
def manLevels (str : BitString) (t : Nat) : LevelCode × LevelCode :=
  if bit str t = 1#1 then (0b01#2, 0b00#2) else (0b00#2, 0b01#2)

/-- Differential Manchester: `(Z_t, ¬Z_t)`, `Z_t` the parity of the number of `0` bits among
`b_0 ... b_t` (R101). -/
def dmParity (str : BitString) (t : Nat) : Bit := BitVec.ofNat 1 (zeros str (t + 1))

/-- The sub-levels of bit `t` of a run. -/
def schemeLevels (e : Scheme) (str : BitString) (t : Nat) : LevelCode × LevelCode :=
  match e with
  | .nrzL => both (code (bit str t))
  | .nrzI => both (code (nrziLevel str t))
  | .bipolarAMI => both (amiLevel str t)
  | .pseudoternary => both (ptLevel str t)
  | .manchester => manLevels str t
  | .differentialManchester => (code (dmParity str t), code (~~~ dmParity str t))

/-! Operations. -/

/-- The ENCODE operation of a scheme (R49). -/
def encodeOf : Scheme → BitString → Instr
  | .nrzL => .encodeNrzL
  | .nrzI => .encodeNrzI
  | .bipolarAMI => .encodeAmi
  | .pseudoternary => .encodePt
  | .manchester => .encodeMan
  | .differentialManchester => .encodeDm

/-- The STEP operation of a block (R59). -/
def stepOf : Scheme → Bit → Bit → Instr
  | .nrzL => .stepNrzL
  | .nrzI => .stepNrzI
  | .bipolarAMI => .stepAmi
  | .pseudoternary => .stepPt
  | .manchester => .stepMan
  | .differentialManchester => .stepDm

/-- `i` is an ENCODE of the operand fields `str`: one of the six or a reserved code. -/
def IsEncode (i : Instr) (str : BitString) : Prop :=
  (∃ e, i = encodeOf e str) ∨ i = .encodeReserved110 str ∨ i = .encodeReserved111 str

/-- The number of a scheme code (R49). -/
def schemeNumber : Scheme → Nat
  | .nrzL => 0
  | .nrzI => 1
  | .bipolarAMI => 2
  | .pseudoternary => 3
  | .manchester => 4
  | .differentialManchester => 5

/-- The operation is executed at `s` and leaves the response `r`. -/
def Answers (i : Instr) (s : State) (r : RespWord) : Prop :=
  ∃ t, exec i s = .next t ∧ t.resp = r

/-- The host drives a standalone block through a string, `first = 1` on bit 0 (R124). -/
def driveBlock (e : Scheme) (str : BitString) : List HostAction :=
  (List.range str.len.toNat).map fun t =>
    .step e ((if t = 0 then 1#1 else 0#1) ++ bit str t)

/-- `+1, -1, +1, -1, ...`, `n` of them (R92). -/
def alternating (n : Nat) : List LevelCode :=
  (List.range n).map fun j => if j % 2 = 0 then 0b01#2 else 0b11#2

end Sys2Proof.Stated

open Sys2Proof Sys2Proof.Machine Sys2Proof.Stated

/-! Encodings. -/

/-- Decoding an encoded well-formed operation gives it back, with every operand at every value (R48, R49,
R59, R63). -/
def Obligations.DecodeOfEncodeIsTheOperation : Prop :=
  ∀ i : Instr, i.WellFormed = true → decode (encode i) = i

/-- Every issued word decodes to a well-formed operation that encodes back to it: no bit is dropped
and no word has two meanings (R48, R59, R61, R63). -/
def Obligations.EncodeOfDecodeIsTheWord : Prop :=
  ∀ w : Issue, (decode w).WellFormed = true ∧ encode (decode w) = w

/-- R63: a request word is decoded by `REQ[2:0]` alone, a STEP by the block it is issued to, RESET by the
reset input; the operand fields stand at the bit positions of R48 and R59. -/
def Obligations.OperationIsSelectedBySchemeFieldBlockOrResetInput : Prop :=
  (∀ (req : ReqWord) (e : Scheme), (req.extractLsb' 0 3).toNat = schemeNumber e →
    decode (.request req) = encodeOf e (requestFields req)) ∧
  (∀ req : ReqWord, (req.extractLsb' 0 3).toNat = 6 →
    decode (.request req) = .encodeReserved110 (requestFields req)) ∧
  (∀ req : ReqWord, (req.extractLsb' 0 3).toNat = 7 →
    decode (.request req) = .encodeReserved111 (requestFields req)) ∧
  (∀ (e : Scheme) (first b : Bit), decode (.step e (first ++ b)) = stepOf e first b) ∧
  decode .reset = .reset

/-- Words of the spec's own vectors decode to the operations they stand for: the requests of 95_test_vectors.md
E1, E2, P3 (operation 2) and E8, and the STEP pair of P4 (operation 6). -/
def Obligations.SpecExampleWordsDecode : Prop :=
  decode (.request 0x00000000000018989818A1#87) = .encodeNrzI
    ⟨4#4, [0x31#8, 0x30#8, 0x31#8, 0x31#8, 0#8, 0#8, 0#8, 0#8, 0#8, 0#8]⟩ ∧
  decode (.request 0x00000000000018989818A2#87) = .encodeAmi
    ⟨4#4, [0x31#8, 0x30#8, 0x31#8, 0x31#8, 0#8, 0#8, 0#8, 0#8, 0#8, 0#8]⟩ ∧
  decode (.request 0x00000000000018B09818A7#87) = .encodeReserved111
    ⟨4#4, [0x31#8, 0x30#8, 0x61#8, 0x31#8, 0#8, 0#8, 0#8, 0#8, 0#8, 0#8]⟩ ∧
  decode (.request 0x18981898981818989818D8#87) = .encodeNrzL
    ⟨11#4, [0x31#8, 0x30#8, 0x31#8, 0x31#8, 0x30#8, 0x30#8, 0x31#8, 0x31#8, 0x30#8, 0x31#8]⟩ ∧
  decode (.step .differentialManchester 0b10#2) = .stepDm 1#1 0#1

/-- The bits given to a port are a word of it exactly when they are as wide as the port and no bit is set
above: a request is exactly one 87-bit word (R61), a STEP's input the pair `{first, bit}` (R59). The two
refusals and their names are the model's (log 8). -/
def Obligations.OnlyWordsOfThePortsWidthDecode : Prop :=
  ∀ (port : Port) (nbits w : Nat),
    ((∃ i, decodeBits port nbits w = .ok i) ↔
      nbits = (match port with | .request => 87 | .encoder _ => 2 | .resetInput => 0) ∧ w < 2 ^ nbits) ∧
    (∀ req : ReqWord, decodeBits .request 87 req.toNat = .ok (decode (.request req))) ∧
    (∀ (e : Scheme) (x : BitVec 2), decodeBits (.encoder e) 2 x.toNat = .ok (decode (.step e x)))

/-- R62: the text forms. `ENCODE <scheme>, "<string>"` assembles to the scheme's code, the string's length,
its character codes and `0x00` beyond; the raw form gives the word; STEP and RESET. Which characters the
text form can spell (printable ASCII), and that it spells no string of length 0 or above 10, are the
model's reading (log 15). -/
def Obligations.TextFormsAssembleToTheirOperations : Prop :=
  (∀ (e : Scheme) (text : List Char), 1 ≤ text.length → text.length ≤ 10 →
    (∀ c ∈ text, 0x20 ≤ c.toNat ∧ c.toNat ≤ 0x7e) →
    ∃ w, assemble (.encode e text) = some w ∧
      decode w = encodeOf e (textFields text)) ∧
  (∀ (e : Scheme) (text : List Char), text.length = 0 ∨ 10 < text.length →
    assemble (.encode e text) = none) ∧
  (∀ req : ReqWord, assemble (.encodeRaw req) = some (.request req)) ∧
  (∀ (e : Scheme) (first b : Bit), ∃ w, assemble (.step e first b) = some w ∧ decode w = stepOf e first b) ∧
  assemble .reset = some .reset

/-- R47: the code of a level is its two's complement, and a model that decodes the code `10` refuses it. -/
def Obligations.LevelCodeIsTwosComplement : Prop :=
  (levelCode .minusOne).toInt = -1 ∧ (levelCode .zero).toInt = 0 ∧ (levelCode .plusOne).toInt = 1 ∧
  (∀ l : Level, levelOfCode (levelCode l) = some l) ∧
  (∀ c : LevelCode, levelOfCode c = none ↔ c = 0b10#2)

/-! Reset. -/

/-- The registers hold their reset values right after reset (R21 to R24, R26 to R28, R118). -/
def Obligations.ResetStateHoldsTheResetValues : Prop :=
  State.reset.standalone.nrziLast = 0#1 ∧ State.reset.standalone.amiPol = 0#1 ∧
  State.reset.standalone.ptPol = 0#1 ∧ State.reset.standalone.dmLast = 1#1 ∧
  State.reset.instances.nrziLast = 0#1 ∧ State.reset.instances.amiPol = 0#1 ∧
  State.reset.instances.ptPol = 0#1 ∧ State.reset.instances.dmLast = 1#1 ∧
  State.reset.resp = 0#57 ∧ State.reset.done = 0#1

/-- RESET completes and sets every register of R15, in every encoder instance, to its reset value, and
nothing else changes (R118). That "no other effect" keeps the outputs `l0`, `l1` of the standalone blocks is
the model's reading (log 4). -/
def Obligations.ResetLoadsEveryRegister : Prop :=
  ∀ s : State, exec .reset s = .next { s with
    standalone := { nrziLast := 0#1, amiPol := 0#1, ptPol := 0#1, dmLast := 1#1 }
    instances := { nrziLast := 0#1, amiPol := 0#1, ptPol := 0#1, dmLast := 1#1 }
    resp := 0#57
    done := 0#1 }

/-- R120: RESET during a transaction abandons it: the state is as RESET leaves it and `DONE` is 0. The
host action that stands for it is the model's (log 7). -/
def Obligations.ResetDuringEncodeAbandonsIt : Prop :=
  ∀ (s : State) (rest : List HostAction), ∃ t,
    step { s with host := .resetDuringEncode :: rest } = .next t ∧
    exec .reset { s with host := rest } = .next t ∧ t.done = 0#1 ∧ t.resp = 0#57 ∧
    t.standalone = State.reset.standalone ∧ t.instances = State.reset.instances

/-! The six STEP operations: result, register, outputs, and everything else unchanged. -/

/-- R86: `STEP_NRZ_L`. -/
def Obligations.StepNrzLResult : Prop :=
  ∀ (s : State) (first b : Bit),
    decode (.step .nrzL (first ++ b)) = .stepNrzL first b ∧
    exec (.stepNrzL first b) s = .next { s with ports := { s.ports with nrzL := ⟨code b, code b⟩ } }

/-- R88: `STEP_NRZ_I`. -/
def Obligations.StepNrzIResult : Prop :=
  ∀ (s : State) (first b : Bit),
    let l := if first = 1#1 then b else s.standalone.nrziLast ^^^ b
    decode (.step .nrzI (first ++ b)) = .stepNrzI first b ∧
    exec (.stepNrzI first b) s = .next { s with
      standalone := { s.standalone with nrziLast := l }
      ports := { s.ports with nrzI := ⟨code l, code l⟩ } }

/-- R91: `STEP_AMI`, with the polarity bit `0` for -1 and `1` for +1. -/
def Obligations.StepAmiResult : Prop :=
  ∀ (s : State) (first b : Bit),
    let p := if first = 1#1 then 0#1 else s.standalone.amiPol
    let p' := if b = 1#1 then ~~~ p else p
    let out : LevelCode := if b = 1#1 then (if p' = 1#1 then 0b01#2 else 0b11#2) else 0b00#2
    decode (.step .bipolarAMI (first ++ b)) = .stepAmi first b ∧
    exec (.stepAmi first b) s = .next { s with
      standalone := { s.standalone with amiPol := p' }
      ports := { s.ports with ami := ⟨out, out⟩ } }

/-- R93: `STEP_PT`, with the polarity bit as in R91. -/
def Obligations.StepPtResult : Prop :=
  ∀ (s : State) (first b : Bit),
    let p := if first = 1#1 then 0#1 else s.standalone.ptPol
    let p' := if b = 0#1 then ~~~ p else p
    let out : LevelCode := if b = 0#1 then (if p' = 1#1 then 0b01#2 else 0b11#2) else 0b00#2
    decode (.step .pseudoternary (first ++ b)) = .stepPt first b ∧
    exec (.stepPt first b) s = .next { s with
      standalone := { s.standalone with ptPol := p' }
      ports := { s.ports with pt := ⟨out, out⟩ } }

/-- R95: `STEP_MAN`. -/
def Obligations.StepManResult : Prop :=
  ∀ (s : State) (first b : Bit),
    decode (.step .manchester (first ++ b)) = .stepMan first b ∧
    exec (.stepMan first b) s = .next { s with
      ports := { s.ports with man := if b = 1#1 then ⟨0b01#2, 0b00#2⟩ else ⟨0b00#2, 0b01#2⟩ } }

/-- R97: `STEP_DM`, the formulas, not the prose labels (90_conflicts.md C3). -/
def Obligations.StepDmResult : Prop :=
  ∀ (s : State) (first b : Bit),
    let prev := s.standalone.dmLast
    let l := if first = 1#1 then (if b = 1#1 then (0#1, 1#1) else (1#1, 0#1))
      else if b = 1#1 then (1#1 - prev, prev) else (prev, prev ^^^ 1#1)
    decode (.step .differentialManchester (first ++ b)) = .stepDm first b ∧
    exec (.stepDm first b) s = .next { s with
      standalone := { s.standalone with dmLast := l.2 }
      ports := { s.ports with dm := ⟨code l.1, code l.2⟩ } }

/-- R89: the first-bit case of `nrz_i_encoder` is the general case with `nrzi_last = 0`; so a step with
`first = 0` issued while `nrzi_last = 0` is a first step. -/
def Obligations.NrzIFirstStepIsAStepFromZero : Prop :=
  ∀ (s : State) (b : Bit), ∃ t, exec (.stepNrzI 1#1 b) s = .next t ∧
    exec (.stepNrzI 0#1 b) { s with standalone := { s.standalone with nrziLast := 0#1 } } = .next t ∧
    (s.standalone.nrziLast = 0#1 → exec (.stepNrzI 0#1 b) s = .next t)

/-- R98: the first-bit case of `differential_manchester_encoder` is the general case with `dm_last = 1`; so a
step with `first = 0` issued while `dm_last = 1` is a first step. -/
def Obligations.DmFirstStepIsAStepFromOne : Prop :=
  ∀ (s : State) (b : Bit), ∃ t, exec (.stepDm 1#1 b) s = .next t ∧
    exec (.stepDm 0#1 b) { s with standalone := { s.standalone with dmLast := 1#1 } } = .next t ∧
    (s.standalone.dmLast = 1#1 → exec (.stepDm 0#1 b) s = .next t)

/-! The ENCODE operations: response, DONE, register of the selected instance, everything else unchanged. -/

/-- R77: `ENCODE_NRZ_L`: both levels of bit `t` are `b_t`; the scheme has no register. As in each of these six, an
illegal string gets the error response of R103 instead (R64). -/
def Obligations.EncodeNrzLResult : Prop :=
  (∀ req : ReqWord, req.extractLsb' 0 3 = 0b000#3 →
    decode (.request req) = .encodeNrzL (requestFields req)) ∧
  (∀ (s : State) (str : BitString), LegalString str → ∃ r,
    exec (.encodeNrzL str) s = .next { s with resp := r, done := 1#1 } ∧
    Encodes r str fun t => (code (bit str t), code (bit str t))) ∧
  ∀ (s : State) (str : BitString), ¬ LegalString str →
    exec (.encodeNrzL str) s = .next { s with resp := 1#57, done := 1#1 }

/-- R78: `ENCODE_NRZ_I` of a legal string: `L_0 = b_0`, `L_t = L_(t-1) ⊕ b_t`. -/
def Obligations.EncodeNrzIResult : Prop :=
  (∀ req : ReqWord, req.extractLsb' 0 3 = 0b001#3 →
    decode (.request req) = .encodeNrzI (requestFields req)) ∧
  (∀ (s : State) (str : BitString), LegalString str → ∃ r,
    exec (.encodeNrzI str) s = .next { s with
      resp := r
      done := 1#1
      instances := { s.instances with nrziLast := nrziLevel str (str.len.toNat - 1) } } ∧
    Encodes r str fun t => (code (nrziLevel str t), code (nrziLevel str t))) ∧
  ∀ (s : State) (str : BitString), ¬ LegalString str →
    exec (.encodeNrzI str) s = .next { s with resp := 1#57, done := 1#1 }

/-- R79: `ENCODE_AMI` of a legal string: the first `1` of the run gives `+1`, later ones alternate; the
register is left at `+1` after an odd number of `1`s and at `-1` after an even number (R31, R92). -/
def Obligations.EncodeAmiResult : Prop :=
  (∀ req : ReqWord, req.extractLsb' 0 3 = 0b010#3 →
    decode (.request req) = .encodeAmi (requestFields req)) ∧
  (∀ (s : State) (str : BitString), LegalString str → ∃ r,
    exec (.encodeAmi str) s = .next { s with
      resp := r
      done := 1#1
      instances := { s.instances with amiPol := BitVec.ofNat 1 (ones str str.len.toNat) } } ∧
    Encodes r str fun t => (amiLevel str t, amiLevel str t)) ∧
  ∀ (s : State) (str : BitString), ¬ LegalString str →
    exec (.encodeAmi str) s = .next { s with resp := 1#57, done := 1#1 }

/-- R80: `ENCODE_PT` of a legal string: the first `0` of the run gives `+1`, later ones alternate; the
register is left at `+1` after an odd number of `0`s and at `-1` after an even number (R31, R94). -/
def Obligations.EncodePtResult : Prop :=
  (∀ req : ReqWord, req.extractLsb' 0 3 = 0b011#3 →
    decode (.request req) = .encodePt (requestFields req)) ∧
  (∀ (s : State) (str : BitString), LegalString str → ∃ r,
    exec (.encodePt str) s = .next { s with
      resp := r
      done := 1#1
      instances := { s.instances with ptPol := BitVec.ofNat 1 (zeros str str.len.toNat) } } ∧
    Encodes r str fun t => (ptLevel str t, ptLevel str t)) ∧
  ∀ (s : State) (str : BitString), ¬ LegalString str →
    exec (.encodePt str) s = .next { s with resp := 1#57, done := 1#1 }

/-- R81: `ENCODE_MAN` of a legal string; the scheme has no register. -/
def Obligations.EncodeManResult : Prop :=
  (∀ req : ReqWord, req.extractLsb' 0 3 = 0b100#3 →
    decode (.request req) = .encodeMan (requestFields req)) ∧
  (∀ (s : State) (str : BitString), LegalString str → ∃ r,
    exec (.encodeMan str) s = .next { s with resp := r, done := 1#1 } ∧
    Encodes r str fun t => if bit str t = 1#1 then (0b01#2, 0b00#2) else (0b00#2, 0b01#2)) ∧
  ∀ (s : State) (str : BitString), ¬ LegalString str →
    exec (.encodeMan str) s = .next { s with resp := 1#57, done := 1#1 }

/-- R82 and R101: `ENCODE_DM` of a legal string: `(L0_t, L1_t) = (Z_t, ¬Z_t)`; the register is left at the last
bit's `L1` (R31). -/
def Obligations.EncodeDmResult : Prop :=
  (∀ req : ReqWord, req.extractLsb' 0 3 = 0b101#3 →
    decode (.request req) = .encodeDm (requestFields req)) ∧
  (∀ (s : State) (str : BitString), LegalString str → ∃ r,
    exec (.encodeDm str) s = .next { s with
      resp := r
      done := 1#1
      instances := { s.instances with dmLast := ~~~ dmParity str (str.len.toNat - 1) } } ∧
    Encodes r str fun t => (code (dmParity str t), code (~~~ dmParity str t))) ∧
  ∀ (s : State) (str : BitString), ¬ LegalString str →
    exec (.encodeDm str) s = .next { s with resp := 1#57, done := 1#1 }

/-- R104: a reserved scheme code with a legal string: the response `UnknownScheme`, which records nothing but its
code; no other operation produces it. -/
def Obligations.ReservedSchemeGivesUnknownScheme : Prop :=
  (∀ (s : State) (str : BitString), LegalString str →
    exec (.encodeReserved110 str) s = .next { s with resp := 2#57, done := 1#1 } ∧
    exec (.encodeReserved111 str) s = .next { s with resp := 2#57, done := 1#1 }) ∧
  (∀ (i : Instr) (s t : State), exec i s = .next t → t.resp = 2#57 →
    s.resp = 2#57 ∨ ∃ str, LegalString str ∧ (i = .encodeReserved110 str ∨ i = .encodeReserved111 str))

/-- R105: an illegal length or character, whatever the scheme code, gives `InvalidInput`, which records nothing but
its code; no other operation produces it. -/
def Obligations.IllegalStringGivesInvalidInput : Prop :=
  (∀ (s : State) (str : BitString) (i : Instr), IsEncode i str → ¬ LegalString str →
    exec i s = .next { s with resp := 1#57, done := 1#1 }) ∧
  (∀ (i : Instr) (s t : State), exec i s = .next t → t.resp = 1#57 →
    s.resp = 1#57 ∨ ∃ str, IsEncode i str ∧ ¬ LegalString str)

/-- R103 and R106: a failed ENCODE steps no encoder and writes nothing but the error response (`BITS` 0, every `LEVEL`
`00`, `COUNT` 0, `STATUS` the code) and `DONE`. -/
def Obligations.FailedEncodeWritesOnlyTheErrorResponse : Prop :=
  ∀ (s : State) (str : BitString) (i : Instr), IsEncode i str →
    (¬ LegalString str ∨ i = .encodeReserved110 str ∨ i = .encodeReserved111 str) →
    ∃ c : BitVec 2, (c = 0b01#2 ∨ c = 0b10#2) ∧ (c = 0b01#2 ↔ ¬ LegalString str) ∧
      exec i s = .next { s with resp := 0#10 ++ 0#40 ++ 0#5 ++ c, done := 1#1 }

/-- R66: which outcome a request has: `InvalidInput` if its string is illegal, else `UnknownScheme` if its
code is reserved, else `OK`. -/
def Obligations.InvalidInputWinsOverUnknownScheme : Prop :=
  ∀ (s : State) (str : BitString) (i : Instr), IsEncode i str → ∃ r, Answers i s r ∧
    (status r = 0b01#2 ↔ ¬ LegalString str) ∧
    (status r = 0b10#2 ↔ LegalString str ∧ (i = .encodeReserved110 str ∨ i = .encodeReserved111 str)) ∧
    (status r = 0b00#2 ↔ LegalString str ∧ ∃ e, i = encodeOf e str)

/-- R53: the character slots beyond `LEN` do not change what a request does, and with an illegal `LEN` no slot
does. -/
def Obligations.SlotsBeyondLengthAreIgnored : Prop :=
  ∀ (s : State) (a b : BitString) (e : Scheme), a.len = b.len →
    ((1 ≤ a.len.toNat ∧ a.len.toNat ≤ 10) → ∀ t < a.len.toNat, a.chars[t]? = b.chars[t]?) →
    exec (encodeOf e a) s = exec (encodeOf e b) s ∧
    exec (.encodeReserved110 a) s = exec (.encodeReserved110 b) s ∧
    exec (.encodeReserved111 a) s = exec (.encodeReserved111 b) s

/-- R72: every completed ENCODE, successful or failed, sets `DONE` to 1; and it leaves the standalone blocks and
the host's inputs alone (R28). -/
def Obligations.EveryEncodeSetsDone : Prop :=
  ∀ (s : State) (str : BitString) (i : Instr), IsEncode i str → ∃ t, exec i s = .next t ∧
    t.done = 1#1 ∧ t.standalone = s.standalone ∧ t.ports = s.ports ∧
    t.reqLines = s.reqLines ∧ t.host = s.host

/-- R30: only the encoder instance that the scheme selects is stepped; the registers of the other instances
keep their values. -/
def Obligations.OnlyTheSelectedInstanceIsStepped : Prop :=
  ∀ (s : State) (str : BitString) (e : Scheme), ∃ t, exec (encodeOf e str) s = .next t ∧
    (e ≠ .nrzI → t.instances.nrziLast = s.instances.nrziLast) ∧
    (e ≠ .bipolarAMI → t.instances.amiPol = s.instances.amiPol) ∧
    (e ≠ .pseudoternary → t.instances.ptPol = s.instances.ptPol) ∧
    (e ≠ .differentialManchester → t.instances.dmLast = s.instances.dmLast)

/-- R31: what the selected instance's register holds after a successful ENCODE, read off the response: for
NRZ-I and Differential Manchester the last sub-level; for AMI and Pseudoternary the polarity of the last
non-zero level, or -1 if there is none. -/
def Obligations.SelectedRegisterHoldsTheLastLevel : Prop :=
  ∀ (s : State) (str : BitString), LegalString str →
    let last := 2 * str.len.toNat - 1
    let lastPolarity (r : RespWord) (pol : Bit) : Prop :=
      (∀ k < 20, level r k ≠ 0b00#2 → (∀ j < 20, k < j → level r j = 0b00#2) →
        level r k = if pol = 1#1 then 0b01#2 else 0b11#2) ∧
      ((∀ k < 20, level r k = 0b00#2) → pol = 0#1)
    (∃ t, exec (.encodeNrzI str) s = .next t ∧ level t.resp last = code t.instances.nrziLast) ∧
    (∃ t, exec (.encodeDm str) s = .next t ∧ level t.resp last = code t.instances.dmLast) ∧
    (∃ t, exec (.encodeAmi str) s = .next t ∧ lastPolarity t.resp t.instances.amiPol) ∧
    (∃ t, exec (.encodePt str) s = .next t ∧ lastPolarity t.resp t.instances.ptPol)

/-- R73 and R74: a successful response of any scheme has exactly `2 × LEN` slots in use, each `00`, `01` or `11`,
and no slot after the last sub-level of the last bit is used; no response at all holds the code `10`. -/
def Obligations.ResponseHasTwoLevelsPerBit : Prop :=
  ∀ (s : State) (str : BitString) (i : Instr), IsEncode i str → ∃ r, Answers i s r ∧
    (∀ k < 20, level r k ≠ 0b10#2) ∧
    (status r = 0b00#2 → (count r).toNat = 2 * str.len.toNat ∧
      ∀ k < 20, 2 * str.len.toNat ≤ k → level r k = 0b00#2)

/-! Laws of the schemes. -/

/-- R87: NRZ-L. -/
def Obligations.NrzLLaws : Prop :=
  ∀ (s : State) (str : BitString), LegalString str → ∃ r, Answers (.encodeNrzL str) s r ∧
    ∀ t < str.len.toNat,
      level r (2 * t) = code (bit str t) ∧ level r (2 * t + 1) = code (bit str t) ∧
      (0 < t → (level r (2 * t) ≠ level r (2 * t - 1) ↔ bit str t ≠ bit str (t - 1)))

/-- R90: NRZ-I: an XOR chain from the first bit; a transition at the start of bit `t` exactly when `b_t = 1`; no
mid-bit transition; inverting `b_u` inverts exactly the levels of the bits from `u` on. -/
def Obligations.NrzILaws : Prop :=
  ∀ (s : State) (str : BitString), LegalString str → ∃ r, Answers (.encodeNrzI str) s r ∧
    (∀ t < str.len.toNat,
      level r (2 * t) = code (((List.range (t + 1)).map (bit str)).foldl (· ^^^ ·) 0#1) ∧
      level r (2 * t + 1) = level r (2 * t) ∧
      (0 < t → (level r (2 * t) ≠ level r (2 * t - 1) ↔ bit str t = 1#1))) ∧
    (∀ u < str.len.toNat, ∃ r', Answers (.encodeNrzI (flipChar str u)) s r' ∧
      ∀ t < str.len.toNat, ∀ h < 2,
        (level r' (2 * t + h) = level r (2 * t + h) ↔ t < u) ∧ level r' (2 * t + h) ≠ 0b11#2)

/-- R92: Bipolar AMI: as many non-zero bits as `1` bits; the non-zero levels in order are `+1, -1, +1, ...`;
every `0` bit has level 0; both slots of a bit are equal; the per-bit levels sum to the parity of the number of
`1` bits. -/
def Obligations.AmiLaws : Prop :=
  ∀ (s : State) (str : BitString), LegalString str → ∃ r, Answers (.encodeAmi str) s r ∧
    let perBit := (List.range str.len.toNat).map fun t => level r (2 * t)
    perBit.filter (· ≠ 0b00#2) = alternating (ones str str.len.toNat) ∧
    (perBit.map BitVec.toInt).sum = (ones str str.len.toNat % 2 : Nat) ∧
    ∀ t < str.len.toNat,
      (bit str t = 0#1 → level r (2 * t) = 0b00#2) ∧ level r (2 * t + 1) = level r (2 * t)

/-- R94: Pseudoternary: as many non-zero bits as `0` bits, alternating from `+1`; every `1` bit has level 0; the
levels are those of Bipolar AMI on the string with every bit inverted. -/
def Obligations.PseudoternaryLaws : Prop :=
  ∀ (s : State) (str : BitString), LegalString str → ∃ r, Answers (.encodePt str) s r ∧
    ((List.range str.len.toNat).map fun t => level r (2 * t)).filter (· ≠ 0b00#2) =
      alternating (zeros str str.len.toNat) ∧
    (∀ t < str.len.toNat, bit str t = 1#1 → level r (2 * t) = 0b00#2) ∧
    ∃ r', Answers (.encodeAmi (flipAll str)) s r' ∧ ∀ k < 20, level r k = level r' k

/-- R96: Manchester: `l0 = bit`, `l1 = ¬bit`, a mid-bit transition in every bit; a transition at the start of
bit `t` exactly when `b_t = b_(t-1)`. -/
def Obligations.ManchesterLaws : Prop :=
  ∀ (s : State) (str : BitString), LegalString str → ∃ r, Answers (.encodeMan str) s r ∧
    ∀ t < str.len.toNat,
      level r (2 * t) = code (bit str t) ∧ level r (2 * t + 1) = code (~~~ bit str t) ∧
      level r (2 * t) ≠ level r (2 * t + 1) ∧
      (0 < t → (level r (2 * t) ≠ level r (2 * t - 1) ↔ bit str t = bit str (t - 1)))

/-- R99 and R100: Differential Manchester: a mid-bit transition in every bit; the final sub-level is `b_0` and then
`L1_(t-1) ⊕ ¬b_t`; a transition at the start of bit `t > 0` exactly when `b_t = 1`. -/
def Obligations.DifferentialManchesterLaws : Prop :=
  ∀ (s : State) (str : BitString), LegalString str → ∃ r, Answers (.encodeDm str) s r ∧
    level r 1 = code (bit str 0) ∧
    ∀ t < str.len.toNat,
      level r (2 * t) ≠ level r (2 * t + 1) ∧
      (level r (2 * t) = 0b00#2 ∨ level r (2 * t) = 0b01#2) ∧
      (level r (2 * t + 1) = 0b00#2 ∨ level r (2 * t + 1) = 0b01#2) ∧
      (0 < t → (level r (2 * t + 1) = level r (2 * t - 1) ↔ bit str t = 1#1)) ∧
      (0 < t → (level r (2 * t) ≠ level r (2 * t - 1) ↔ bit str t = 1#1))

/-- R101: Differential Manchester in closed form: `(Z_t, ¬Z_t)`, `Z_t` the parity of the zeros so far. -/
def Obligations.DifferentialManchesterClosedForm : Prop :=
  ∀ (s : State) (str : BitString), LegalString str → ∃ r, Answers (.encodeDm str) s r ∧
    ∀ t < str.len.toNat,
      level r (2 * t) = (if zeros str (t + 1) % 2 = 1 then 0b01#2 else 0b00#2) ∧
      level r (2 * t + 1) = (if zeros str (t + 1) % 2 = 1 then 0b00#2 else 0b01#2)

/-! Whole-machine rules. -/

/-- R75 and R76: the response depends on the request alone: from any two states, whatever happened before
either, the same request gets the same response. -/
def Obligations.ResponseDependsOnTheRequestAlone : Prop :=
  ∀ (s s' : State) (req : ReqWord) (rest rest' : List HostAction), ∃ t t',
    step { s with reqLines := req, host := .encode :: rest } = .next t ∧
    step { s' with reqLines := req, host := .encode :: rest' } = .next t' ∧
    t.resp = t'.resp ∧ t.done = t'.done

/-- Issuing an ENCODE twice leaves what issuing it once leaves: `RESP` and `DONE` (R39, R75), the register of the
selected instance, whose old value `first = 1` ignores (R29, R31), and everything else (R106 for a failure). -/
def Obligations.RepeatedEncodeChangesNothing : Prop :=
  ∀ (s : State) (str : BitString) (i : Instr), IsEncode i str →
    ∃ t, exec i s = .next t ∧ exec i t = .next t

/-- R42 and R68: the bits are taken left to right: two legal strings of any lengths that agree on their first
`m` bits have the same sub-levels there, in every scheme. -/
def Obligations.LevelsDependOnTheBitsSoFar : Prop :=
  ∀ (s s' : State) (a b : BitString) (e : Scheme) (m : Nat), LegalString a → LegalString b →
    m ≤ a.len.toNat → m ≤ b.len.toNat → (∀ t < m, bit a t = bit b t) →
    ∃ r r', Answers (encodeOf e a) s r ∧ Answers (encodeOf e b) s' r' ∧
      ∀ k < 2 * m, level r k = level r' k

/-- R27: `DONE` is cleared by RESET only: if a step takes it from 1 to 0, the host asserted RESET. -/
def Obligations.DoneIsClearedByResetOnly : Prop :=
  ∀ s t : State, step s = .next t → s.done = 1#1 → t.done = 0#1 →
    ∃ rest, s.host = .reset :: rest ∨ s.host = .resetDuringEncode :: rest

/-- R26: `RESP` is written by ENCODE and RESET only. -/
def Obligations.RespIsWrittenByEncodeAndResetOnly : Prop :=
  ∀ s t : State, step s = .next t → t.resp ≠ s.resp →
    ∃ rest, s.host = .encode :: rest ∨ s.host = .reset :: rest ∨ s.host = .resetDuringEncode :: rest

/-- R28: the registers of the private instances are written only by an ENCODE whose scheme selects an instance
(through the steps the dispatcher issues) and by RESET. -/
def Obligations.InstanceRegistersAreWrittenByTheDispatcherOnly : Prop :=
  ∀ s t : State, step s = .next t → t.instances ≠ s.instances →
    ∃ rest, (s.host = .encode :: rest ∧ LegalString (requestFields s.reqLines) ∧
        (s.reqLines.extractLsb' 0 3).toNat ≤ 5) ∨
      s.host = .reset :: rest ∨ s.host = .resetDuringEncode :: rest

/-- R21 to R24: the register of a standalone block is written only by that block's STEP and by RESET. -/
def Obligations.StandaloneRegistersAreWrittenByTheirBlockOnly : Prop :=
  ∀ s t : State, step s = .next t →
    (∃ rest, s.host = .reset :: rest ∨ s.host = .resetDuringEncode :: rest) ∨
    ((t.standalone.nrziLast ≠ s.standalone.nrziLast → ∃ x rest, s.host = .step .nrzI x :: rest) ∧
     (t.standalone.amiPol ≠ s.standalone.amiPol → ∃ x rest, s.host = .step .bipolarAMI x :: rest) ∧
     (t.standalone.ptPol ≠ s.standalone.ptPol → ∃ x rest, s.host = .step .pseudoternary x :: rest) ∧
     (t.standalone.dmLast ≠ s.standalone.dmLast →
       ∃ x rest, s.host = .step .differentialManchester x :: rest))

/-- R102: no operation stops the machine: each of them, at every state and with any operands, completes. -/
def Obligations.EveryOperationCompletes : Prop :=
  ∀ (i : Instr) (s : State), ∃ t, exec i s = .next t

/-- R123: a step stops only where the host issues an ENCODE before the dispatcher's previous one has completed,
and there it is refused. The host action that stands for it is the model's (log 7). -/
def Obligations.OnlyOverlappingEncodesAreRefused : Prop :=
  ∀ s : State, (∀ r, step s = .refused r ↔
      r = .overlappingEncode ∧ ∃ rest, s.host = .encodeOverlapped :: rest) ∧
    ((¬ ∃ rest, s.host = .encodeOverlapped :: rest) → ∃ t, step s = .next t)

/-- A step runs the decoded operation (R41, R63): ENCODE takes the word on the `REQ` lines, STEP the pair driven
at its block, RESET nothing; the host's action is used up, and where the host does nothing the machine stays
as it is (log 5). -/
def Obligations.StepRunsTheDecodedOperation : Prop :=
  ∀ (s : State) (rest : List HostAction),
    step { s with host := .encode :: rest } = exec (decode (.request s.reqLines)) { s with host := rest } ∧
    (∀ (e : Scheme) (x : BitVec 2), step { s with host := .step e x :: rest } =
      exec (decode (.step e x)) { s with host := rest }) ∧
    step { s with host := .reset :: rest } = exec (decode .reset) { s with host := rest } ∧
    step { s with host := [] } = .next { s with host := [] }

/-- The state withFetchWord makes runs the table word next, for every width the table gives a row: the word's
operation, at the state with that word on the `REQ` lines (log 8). -/
def Obligations.FetchWordIsRunNext : Prop :=
  ∀ (s : State) (nbits w : Nat) (i : Instr), decodeTableWord nbits w = some i →
    ∃ t, step (s.withFetchWord nbits w) = .next t ∧
      exec i { s with reqLines := if nbits = 0 then s.reqLines else BitVec.ofNat 87 (w % 2 ^ nbits) } = .next t

/-- R39 and R122: presenting or changing `REQ` has no effect until ENCODE is issued, and none on a transaction
whose request has been accepted. -/
def Obligations.PresentingRequestHasNoEffect : Prop :=
  ∀ (s : State) (w : ReqWord) (rest : List HostAction),
    step { s with host := .presentReq w :: rest } = .next { s with reqLines := w, host := rest } ∧
    ∃ t, step { s with host := .encode :: .presentReq w :: rest } = .next t ∧
      step t = .next { t with reqLines := w, host := rest } ∧
      step { s with host := .encode :: rest } = .next { t with host := rest }

/-- R41 and R115: operations of different instances share no state, so their order does not matter: an ENCODE and a
STEP of a standalone block, and STEPs of two different blocks. -/
def Obligations.OperationsOfDifferentInstancesCommute : Prop :=
  ∀ (s : State) (first b first' b' : Bit) (e e' : Scheme) (i : Instr) (str : BitString), IsEncode i str →
    (∃ u v t, exec i s = .next u ∧ exec (stepOf e first b) u = .next t ∧
      exec (stepOf e first b) s = .next v ∧ exec i v = .next t) ∧
    (e ≠ e' → ∃ u v t, exec (stepOf e first b) s = .next u ∧ exec (stepOf e' first' b') u = .next t ∧
      exec (stepOf e' first' b') s = .next v ∧ exec (stepOf e first b) v = .next t)

/-! The invariant, the consumer, and whole runs. -/

/-- The response and the outputs hold only what is ever produced, and `RESP` and `DONE` agree; every step keeps
this (R27, R47, R55 to R58, R73, R103). -/
def Obligations.EveryStepKeepsTheInvariant : Prop :=
  ∀ s t : State, Inv s → step s = .next t → Inv t

/-- The invariant holds right after reset. That the outputs of the standalone blocks are `00` there is the
model's choice (log 3). -/
def Obligations.InvariantHoldsAtReset : Prop := Inv State.reset

/-- A consumer reads every response that has been produced, and reads none before (R27, R47, R55, R56): on a state
that meets the invariant, the reading is refused exactly while `DONE = 0`. -/
def Obligations.ConsumerReadsEveryResponse : Prop :=
  ∀ s : State, Inv s →
    (s.done = 0#1 → readResponse s = .error .noResponse) ∧
    (s.done = 1#1 → (respStatus s.resp = 0b00#2 → ∃ steps,
        readResponse s = .ok (.encoded steps
          ((List.range ((respCount s.resp).toNat / 2)).map (respBit s.resp))) ∧
        steps.length = (respCount s.resp).toNat ∧
        ∀ (k : Nat) (x : LevelStep), steps[k]? = some x →
          x.bit = k / 2 ∧ x.half = k % 2 ∧ levelCode x.level = respLevel s.resp k) ∧
      (respStatus s.resp = 0b01#2 → readResponse s = .ok (.failed .invalidInput)) ∧
      (respStatus s.resp = 0b10#2 → readResponse s = .ok (.failed .unknownScheme)))

/-- A consumer refuses the status `11`, an odd or over-20 count, and the level code `10` in a slot in use (R47,
R55, R56; I3, I4). That it also refuses a count of 0 on `OK`, and the order of the checks, are the
model's (log 14). -/
def Obligations.ConsumerRefusesWhatIsNeverProduced : Prop :=
  ∀ r : RespWord,
    (respStatus r = 0b11#2 → consumeResponse r = .error .reservedStatus) ∧
    (respStatus r = 0b00#2 → (respCount r).toNat % 2 = 1 ∨ 20 < (respCount r).toNat →
      consumeResponse r = .error .illegalCount) ∧
    (respStatus r = 0b00#2 → (respCount r).toNat % 2 = 0 → (respCount r).toNat ≤ 20 →
      (∃ k < (respCount r).toNat, respLevel r k = 0b10#2) →
      consumeResponse r = .error .reservedLevel)

/-- What an ENCODE of any request word does, from any state, in terms of the word's own bits and each scheme's
closed form: the failure code and nothing else, or the complete encoding (R48 to R58, R64 to R72, R103). -/
def Obligations.RequestWordGivesTheSpecifiedResponse : Prop :=
  ∀ (s : State) (req : ReqWord) (rest : List HostAction), ∃ t,
    step { s with reqLines := req, host := .encode :: rest } = .next t ∧
    t.done = 1#1 ∧ t.standalone = s.standalone ∧ t.ports = s.ports ∧ t.reqLines = req ∧ t.host = rest ∧
    (¬ LegalString (requestFields req) → t.resp = 1#57 ∧ t.instances = s.instances) ∧
    (LegalString (requestFields req) → 6 ≤ (req.extractLsb' 0 3).toNat →
      t.resp = 2#57 ∧ t.instances = s.instances) ∧
    (∀ e, LegalString (requestFields req) → (req.extractLsb' 0 3).toNat = schemeNumber e →
      Encodes t.resp (requestFields req) (schemeLevels e (requestFields req)))

/-- A standalone block that the host drives with `first = 1` on bit 0 shows, after the step for bit `t`, the
sub-levels that the dispatcher's response holds for bit `t` (R28, R68, R124), from any two states. -/
def Obligations.StandaloneBlockAgreesWithTheDispatcher : Prop :=
  ∀ (s s' : State) (e : Scheme) (str : BitString) (t : Nat), LegalString str → t < str.len.toNat →
    ∃ r u, Answers (encodeOf e str) s r ∧
      Host.Core.run Sys2Proof.core (t + 1) { s' with host := driveBlock e str } = .next u ∧
      readOutputs u e = ⟨level r (2 * t), level r (2 * t + 1)⟩
end

