-- ==== Sys2Proof/Laws/Fields.lean ====
section
/-! SUPPORT. What the fields of a packed response and of an encoded request read as. -/

namespace Sys2Proof.Machine

theorem getLsbD_packLevels (cs : List LevelCode) (i : Nat) :
    (packLevels cs).getLsbD i = (decide (i < 40) && (cs.getD (i / 2) 0#2).getLsbD (i % 2)) := by
  induction cs generalizing i with
  | nil => simp [packLevels]
  | cons c cs ih =>
    rcases Nat.lt_or_ge i 2 with hi | hi
    · have h0 : i / 2 = 0 := by omega
      have h1 : i % 2 = i := by omega
      simp [packLevels, h0, h1, hi]
    · obtain ⟨j, rfl⟩ : ∃ j, i = j + 2 := ⟨i - 2, by omega⟩
      have h0 : (j + 2) / 2 = j / 2 + 1 := by omega
      have h1 : (j + 2) % 2 = j % 2 := by omega
      rcases Nat.lt_or_ge (j + 2) 40 with h40 | h40
      · have : j < 40 := by omega
        simp [packLevels, h0, h1, ih, this, h40, -BitVec.getLsbD_eq_getElem]
      · simp [packLevels, h40, Nat.not_lt.mpr h40]

theorem getLsbD_packBits (bs : List Bit) (i : Nat) :
    (packBits bs).getLsbD i = (decide (i < 10) && (bs.getD i 0#1).getLsbD 0) := by
  induction bs generalizing i with
  | nil => simp [packBits]
  | cons b bs ih =>
    cases i with
    | zero => simp [packBits]
    | succ j =>
      rcases Nat.lt_or_ge (j + 1) 10 with h | h
      · have : j < 10 := by omega
        simp [packBits, ih, this, h, -BitVec.getLsbD_eq_getElem]
      · simp [packBits, h, Nat.not_lt.mpr h]

variable (bits : BitVec 10) (levels : BitVec 40) (count : BitVec 5) (status : BitVec 2)

theorem getLsbD_packResponse (i : Nat) :
    (packResponse bits levels count status).getLsbD i =
      if i < 2 then status.getLsbD i
      else if i < 7 then count.getLsbD (i - 2)
      else if i < 47 then levels.getLsbD (i - 7)
      else bits.getLsbD (i - 47) := by
  have e1 : i - 2 - 5 = i - 7 := by omega
  have e2 : i - 7 - 40 = i - 47 := by omega
  simp only [packResponse, BitVec.getLsbD_append, e1, e2]
  by_cases h2 : i < 2
  · simp [h2]
  · by_cases h7 : i < 7
    · simp [h2, h7, show i - 2 < 5 by omega]
    · by_cases h47 : i < 47
      · simp [h2, h7, h47, show ¬ i - 2 < 5 by omega, show i - 7 < 40 by omega]
      · simp [h2, h7, h47, show ¬ i - 2 < 5 by omega, show ¬ i - 7 < 40 by omega]

@[simp] theorem respStatus_packResponse :
    respStatus (packResponse bits levels count status) = status := by
  apply BitVec.eq_of_getLsbD_eq
  intro i hi
  simp [respStatus, getLsbD_packResponse, hi]

@[simp] theorem respCount_packResponse :
    respCount (packResponse bits levels count status) = count := by
  apply BitVec.eq_of_getLsbD_eq
  intro i hi
  simp [-BitVec.getLsbD_eq_getElem, respCount, getLsbD_packResponse, hi, show 1 < 2 + i by omega, show 2 + i < 7 by omega]

theorem respLevel_packResponse {k : Nat} (hk : k < 20) :
    respLevel (packResponse bits levels count status) k = levels.extractLsb' (2 * k) 2 := by
  apply BitVec.eq_of_getLsbD_eq
  intro i hi
  simp [respLevel, getLsbD_packResponse, hi,
    show ¬ 7 + 2 * k + i < 2 by omega, show ¬ 7 + 2 * k + i < 7 by omega,
    show 7 + 2 * k + i < 47 by omega, show 7 + 2 * k + i - 7 = 2 * k + i by omega]

theorem respBit_packResponse (t : Nat) :
    respBit (packResponse bits levels count status) t = bits.extractLsb' t 1 := by
  apply BitVec.eq_of_getLsbD_eq
  intro i hi
  simp [respBit, getLsbD_packResponse, hi,
    show ¬ 47 + t + i < 2 by omega, show ¬ 47 + t + i < 7 by omega,
    show ¬ 47 + t + i < 47 by omega, show 47 + t + i - 47 = t + i by omega]

theorem extract_packLevels (cs : List LevelCode) {k : Nat} (hk : k < 20) :
    (packLevels cs).extractLsb' (2 * k) 2 = cs.getD k 0#2 := by
  apply BitVec.eq_of_getLsbD_eq
  intro i hi
  simp [-BitVec.getLsbD_eq_getElem, getLsbD_packLevels, hi, show 2 * k + i < 40 by omega,
    show (2 * k + i) / 2 = k by omega, show (2 * k + i) % 2 = i by omega]

theorem extract_packBits (bs : List Bit) {t : Nat} (ht : t < 10) :
    (packBits bs).extractLsb' t 1 = bs.getD t 0#1 := by
  apply BitVec.eq_of_getLsbD_eq
  intro i hi
  obtain rfl : i = 0 := by omega
  simp [-BitVec.getLsbD_eq_getElem, getLsbD_packBits, ht]

/-- A response word is its fields: two words with equal fields are equal (R54). -/
theorem respWord_ext {r q : RespWord} (hs : respStatus r = respStatus q)
    (hc : respCount r = respCount q) (hl : ∀ k < 20, respLevel r k = respLevel q k)
    (hb : ∀ t < 10, respBit r t = respBit q t) : r = q := by
  apply BitVec.eq_of_getLsbD_eq
  intro i hi
  by_cases h2 : i < 2
  · have := congrArg (fun x => BitVec.getLsbD x i) hs
    simpa [respStatus, h2] using this
  · by_cases h7 : i < 7
    · have := congrArg (fun x => BitVec.getLsbD x (i - 2)) hc
      simpa [respCount, show i - 2 < 5 by omega,
        show 2 + (i - 2) = i by omega] using this
    · by_cases h47 : i < 47
      · have := congrArg (fun x => BitVec.getLsbD x ((i - 7) % 2)) (hl ((i - 7) / 2) (by omega))
        simpa [respLevel, show (i - 7) % 2 < 2 by omega,
          show 7 + 2 * ((i - 7) / 2) + (i - 7) % 2 = i by omega] using this
      · have := congrArg (fun x => BitVec.getLsbD x 0) (hb (i - 47) (by omega))
        simpa [respBit, show 47 + (i - 47) = i by omega] using this

/-! The slots of a run. -/

theorem length_levelSlots (outs : List SubLevels) :
    (levelSlots outs).length = 2 * outs.length := by
  induction outs with
  | nil => rfl
  | cons o outs ih => simp only [levelSlots, List.flatMap_cons, List.length_append,
      List.length_cons, List.length_nil] at *; omega

theorem levelSlots_even (outs : List SubLevels) (t : Nat) :
    (levelSlots outs).getD (2 * t) 0#2 = (outs.getD t ⟨0#2, 0#2⟩).l0 := by
  induction outs generalizing t with
  | nil => simp [levelSlots]
  | cons o outs ih =>
    cases t with
    | zero => simp [levelSlots]
    | succ t =>
      have := ih t
      simp only [levelSlots, List.getD_eq_getElem?_getD] at this
      simp [levelSlots, show 2 * (t + 1) = 2 * t + 1 + 1 by omega, this]

theorem levelSlots_odd (outs : List SubLevels) (t : Nat) :
    (levelSlots outs).getD (2 * t + 1) 0#2 = (outs.getD t ⟨0#2, 0#2⟩).l1 := by
  induction outs generalizing t with
  | nil => simp [levelSlots]
  | cons o outs ih =>
    cases t with
    | zero => simp [levelSlots]
    | succ t =>
      have := ih t
      simp only [levelSlots, List.getD_eq_getElem?_getD] at this
      simp [levelSlots, show 2 * (t + 1) + 1 = 2 * t + 1 + 1 + 1 by omega, this]

/-! The fields of a successful response. -/

variable (len : BitVec 4) (bs : List Bit) (outs : List SubLevels)

@[simp] theorem respStatus_okResponse : respStatus (okResponse len bs outs) = 0b00#2 := by
  simp [okResponse, statusCode]

@[simp] theorem respCount_okResponse :
    respCount (okResponse len bs outs) = BitVec.ofNat 5 (2 * len.toNat) := by
  simp [okResponse, countField]

theorem toNat_respCount_okResponse :
    (respCount (okResponse len bs outs)).toNat = 2 * len.toNat := by
  have : len.toNat < 16 := len.isLt
  rw [respCount_okResponse, BitVec.toNat_ofNat]
  omega

theorem respLevel_okResponse {k : Nat} (hk : k < 20) :
    respLevel (okResponse len bs outs) k = (levelSlots outs).getD k 0#2 := by
  rw [okResponse, respLevel_packResponse _ _ _ _ hk, extract_packLevels _ hk]

theorem respBit_okResponse {t : Nat} (ht : t < 10) :
    respBit (okResponse len bs outs) t = bs.getD t 0#1 := by
  rw [okResponse, respBit_packResponse, extract_packBits _ ht]

@[simp] theorem failedResponse_invalidInput : failedResponse .invalidInput = 1#57 := by decide

@[simp] theorem failedResponse_unknownScheme : failedResponse .unknownScheme = 2#57 := by decide

/-! The fields of an encoded request. -/

theorem getLsbD_packChars (cs : List Byte) (i : Nat) :
    (packChars cs).getLsbD i = (decide (i < 80) && (cs.getD (i / 8) 0#8).getLsbD (i % 8)) := by
  induction cs generalizing i with
  | nil => simp [packChars]
  | cons c cs ih =>
    rcases Nat.lt_or_ge i 8 with hi | hi
    · have h0 : i / 8 = 0 := by omega
      have h1 : i % 8 = i := by omega
      simp [packChars, h0, h1, hi, show i < 80 by omega]
    · obtain ⟨j, rfl⟩ : ∃ j, i = j + 8 := ⟨i - 8, by omega⟩
      have h0 : (j + 8) / 8 = j / 8 + 1 := by omega
      have h1 : (j + 8) % 8 = j % 8 := by omega
      rcases Nat.lt_or_ge (j + 8) 80 with h80 | h80
      · have : j < 80 := by omega
        simp [packChars, h0, h1, ih, this, h80, -BitVec.getLsbD_eq_getElem]
      · simp [packChars, h80, Nat.not_lt.mpr h80]

variable (code : BitVec 3) (str : BitString)

theorem getLsbD_encodeRequest (i : Nat) :
    (encodeRequest code str).getLsbD i =
      if i < 3 then code.getLsbD i
      else if i < 7 then str.len.getLsbD (i - 3)
      else (packChars str.chars).getLsbD (i - 7) := by
  have e1 : i - 3 - 4 = i - 7 := by omega
  simp only [encodeRequest, BitVec.getLsbD_append, e1]
  by_cases h3 : i < 3
  · simp [h3]
  · by_cases h7 : i < 7
    · simp [h3, h7, show i - 3 < 4 by omega]
    · simp [h3, h7, show ¬ i - 3 < 4 by omega]

@[simp] theorem reqScheme_encodeRequest : reqScheme (encodeRequest code str) = code := by
  apply BitVec.eq_of_getLsbD_eq
  intro i hi
  simp [reqScheme, getLsbD_encodeRequest, hi]

@[simp] theorem reqLen_encodeRequest : reqLen (encodeRequest code str) = str.len := by
  apply BitVec.eq_of_getLsbD_eq
  intro i hi
  simp [reqLen, getLsbD_encodeRequest, hi, show 3 + i < 7 by omega]

theorem reqChar_encodeRequest {k : Nat} (hk : k < 10) :
    reqChar (encodeRequest code str) k = str.chars.getD k 0#8 := by
  apply BitVec.eq_of_getLsbD_eq
  intro i hi
  simp [-BitVec.getLsbD_eq_getElem, reqChar, getLsbD_encodeRequest, getLsbD_packChars, hi,
    show ¬ 7 + 8 * k + i < 3 by omega, show ¬ 7 + 8 * k + i < 7 by omega,
    show 7 + 8 * k + i - 7 = 8 * k + i by omega, show 8 * k + i < 80 by omega,
    show (8 * k + i) / 8 = k by omega, show (8 * k + i) % 8 = i by omega]

end Sys2Proof.Machine
end

