-- ==== Sys2Proof/Laws/Run.lean ====
section
/-! SUPPORT. The run of an encoder over a bit sequence (40_line_code_dispatcher.md R68): its length, the
step it makes for each bit, and the registers it reads and writes. -/

namespace Sys2Proof.Machine

variable (e : Scheme) (f : Bit) (bs : List Bit) (r : EncoderRegs)

@[simp] theorem runEncoder_nil : runEncoder e f [] r = (r, []) := rfl

theorem runEncoder_cons (b : Bit) :
    runEncoder e f (b :: bs) r =
      ((runEncoder e 0#1 bs (encoderStep e f b r).1).1,
        (encoderStep e f b r).2 :: (runEncoder e 0#1 bs (encoderStep e f b r).1).2) := rfl

@[simp] theorem length_runEncoder : (runEncoder e f bs r).2.length = bs.length := by
  induction bs generalizing f r with
  | nil => rfl
  | cons b bs ih => simp [runEncoder_cons, ih]

/-- `first` for the bit of index `t` (R68). -/
def firstAt (f : Bit) (t : Nat) : Bit := if t = 0 then f else 0#1

/-- The registers after bit `t` are those the step for bit `t` leaves (R42). -/
theorem runEncoder_take_succ {t : Nat} (ht : t < bs.length) :
    (runEncoder e f (bs.take (t + 1)) r).1 =
      (encoderStep e (firstAt f t) bs[t] (runEncoder e f (bs.take t) r).1).1 := by
  induction bs generalizing f r t with
  | nil => exact absurd ht (Nat.not_lt_zero t)
  | cons b bs ih =>
    cases t with
    | zero => rfl
    | succ t =>
      have h : t < bs.length := Nat.lt_of_succ_lt_succ ht
      have := ih 0#1 (encoderStep e f b r).1 h
      simp only [List.take_succ_cons, runEncoder_cons, List.getElem_cons_succ]
      rw [this]
      cases t <;> rfl

/-- The outputs for bit `t` are those of the step for bit `t`, read at the registers the run has left
before it (R42). -/
theorem runEncoder_getElem {t : Nat} (ht : t < bs.length) :
    (runEncoder e f bs r).2[t]'(by simpa using ht) =
      (encoderStep e (firstAt f t) bs[t] (runEncoder e f (bs.take t) r).1).2 := by
  induction bs generalizing f r t with
  | nil => exact absurd ht (Nat.not_lt_zero t)
  | cons b bs ih =>
    cases t with
    | zero => rfl
    | succ t =>
      have h : t < bs.length := Nat.lt_of_succ_lt_succ ht
      have := ih 0#1 (encoderStep e f b r).1 h
      simp only [List.take_succ_cons, runEncoder_cons, List.getElem_cons_succ]
      rw [this]
      cases t <;> rfl

/-- The same, at an index that may lie beyond the run. -/
theorem runEncoder_getD {t : Nat} (ht : t < bs.length) (d : SubLevels) :
    (runEncoder e f bs r).2.getD t d =
      (encoderStep e (firstAt f t) (bs.getD t 0#1) (runEncoder e f (bs.take t) r).1).2 := by
  have h : t < (runEncoder e f bs r).2.length := by simpa using ht
  rw [List.getD_eq_getElem _ _ h, List.getD_eq_getElem _ _ ht, runEncoder_getElem e f bs r ht]

/-- A run that starts with `first = 1` gives the same outputs whatever the registers held (R29). -/
theorem runEncoder_outputs_indep (q : EncoderRegs) :
    (runEncoder e 1#1 bs r).2 = (runEncoder e 1#1 bs q).2 := by
  suffices h : ∀ (g : Bit) (bs : List Bit) (r q : EncoderRegs),
      (g = 1#1 ∨ (e = .nrzI → r.nrziLast = q.nrziLast) ∧ (e = .bipolarAMI → r.amiPol = q.amiPol) ∧
        (e = .pseudoternary → r.ptPol = q.ptPol) ∧
        (e = .differentialManchester → r.dmLast = q.dmLast)) →
      (runEncoder e g bs r).2 = (runEncoder e g bs q).2 from h _ _ _ _ (.inl rfl)
  intro g bs
  induction bs generalizing g with
  | nil => intros; rfl
  | cons b bs ih =>
    intro r q h
    have hnow : (encoderStep e g b r).2 = (encoderStep e g b q).2 := by
      rcases h with rfl | ⟨h1, h2, h3, h4⟩
      · cases e <;> rfl
      · cases e <;> simp_all [encoderStep]
    have hlater := ih 0#1 (encoderStep e g b r).1 (encoderStep e g b q).1 (.inr (by
      rcases h with rfl | ⟨h1, h2, h3, h4⟩
      · cases e <;> simp [encoderStep, nrzIStep, amiStep, ptStep, dmStep, dmLevels]
      · cases e <;> simp_all [encoderStep]))
    simp only [runEncoder_cons, hnow, hlater]

/-! The registers a run leaves alone (R30). -/

theorem runEncoder_nrziLast (he : e ≠ .nrzI) : (runEncoder e f bs r).1.nrziLast = r.nrziLast := by
  induction bs generalizing f r with
  | nil => rfl
  | cons b bs ih =>
    rw [runEncoder_cons]
    cases e <;> first | exact ih _ _ | exact absurd rfl he

theorem runEncoder_amiPol (he : e ≠ .bipolarAMI) : (runEncoder e f bs r).1.amiPol = r.amiPol := by
  induction bs generalizing f r with
  | nil => rfl
  | cons b bs ih =>
    rw [runEncoder_cons]
    cases e <;> first | exact ih _ _ | exact absurd rfl he

theorem runEncoder_ptPol (he : e ≠ .pseudoternary) : (runEncoder e f bs r).1.ptPol = r.ptPol := by
  induction bs generalizing f r with
  | nil => rfl
  | cons b bs ih =>
    rw [runEncoder_cons]
    cases e <;> first | exact ih _ _ | exact absurd rfl he

theorem runEncoder_dmLast (he : e ≠ .differentialManchester) :
    (runEncoder e f bs r).1.dmLast = r.dmLast := by
  induction bs generalizing f r with
  | nil => rfl
  | cons b bs ih =>
    rw [runEncoder_cons]
    cases e <;> first | exact ih _ _ | exact absurd rfl he

/-- No step of any encoder produces the level code `10` (R47, R73). -/
theorem encoderStep_produces (b : Bit) :
    (encoderStep e f b r).2.l0 ≠ 0b10#2 ∧ (encoderStep e f b r).2.l1 ≠ 0b10#2 := by
  have hlev : ∀ l : Level, ¬ levelCode l = 0b10#2 := by intro l; cases l <;> decide
  have hbit : ∀ x : Bit, ¬ bitCode x = 0b10#2 := fun x => hlev _
  cases e
  · exact ⟨hbit _, hbit _⟩
  · exact ⟨hbit _, hbit _⟩
  · simp only [encoderStep, amiStep]
    split <;> simp only [bothHalves, ne_eq, hlev, not_false_eq_true, and_self]
  · simp only [encoderStep, ptStep]
    split <;> simp only [bothHalves, ne_eq, hlev, not_false_eq_true, and_self]
  · simp only [encoderStep, manStep]
    split <;> simp only [ne_eq, hbit, not_false_eq_true, and_self]
  · exact ⟨hbit _, hbit _⟩

end Sys2Proof.Machine
end

