-- ==== Sys2Proof/Laws/State.lean ====
section
/-! SUPPORT. One lemma per field per update of State, and the read-after-write lemmas of the outputs. -/

namespace Sys2Proof.Machine

variable (s : State)

@[simp] theorem State.answer_standalone (r : RespWord) : (s.answer r).standalone = s.standalone := rfl
@[simp] theorem State.answer_ports (r : RespWord) : (s.answer r).ports = s.ports := rfl
@[simp] theorem State.answer_instances (r : RespWord) : (s.answer r).instances = s.instances := rfl
@[simp] theorem State.answer_resp (r : RespWord) : (s.answer r).resp = r := rfl
@[simp] theorem State.answer_done (r : RespWord) : (s.answer r).done = 1#1 := rfl
@[simp] theorem State.answer_reqLines (r : RespWord) : (s.answer r).reqLines = s.reqLines := rfl
@[simp] theorem State.answer_host (r : RespWord) : (s.answer r).host = s.host := rfl

@[simp] theorem State.setInstances_standalone (r : EncoderRegs) : (s.setInstances r).standalone = s.standalone := rfl
@[simp] theorem State.setInstances_ports (r : EncoderRegs) : (s.setInstances r).ports = s.ports := rfl
@[simp] theorem State.setInstances_instances (r : EncoderRegs) : (s.setInstances r).instances = r := rfl
@[simp] theorem State.setInstances_resp (r : EncoderRegs) : (s.setInstances r).resp = s.resp := rfl
@[simp] theorem State.setInstances_done (r : EncoderRegs) : (s.setInstances r).done = s.done := rfl
@[simp] theorem State.setInstances_reqLines (r : EncoderRegs) : (s.setInstances r).reqLines = s.reqLines := rfl
@[simp] theorem State.setInstances_host (r : EncoderRegs) : (s.setInstances r).host = s.host := rfl

@[simp] theorem State.setStandalone_standalone (r : EncoderRegs) : (s.setStandalone r).standalone = r := rfl
@[simp] theorem State.setStandalone_ports (r : EncoderRegs) : (s.setStandalone r).ports = s.ports := rfl
@[simp] theorem State.setStandalone_instances (r : EncoderRegs) : (s.setStandalone r).instances = s.instances := rfl
@[simp] theorem State.setStandalone_resp (r : EncoderRegs) : (s.setStandalone r).resp = s.resp := rfl
@[simp] theorem State.setStandalone_done (r : EncoderRegs) : (s.setStandalone r).done = s.done := rfl
@[simp] theorem State.setStandalone_reqLines (r : EncoderRegs) : (s.setStandalone r).reqLines = s.reqLines := rfl
@[simp] theorem State.setStandalone_host (r : EncoderRegs) : (s.setStandalone r).host = s.host := rfl

@[simp] theorem State.setPorts_standalone (p : OutputPorts) : (s.setPorts p).standalone = s.standalone := rfl
@[simp] theorem State.setPorts_ports (p : OutputPorts) : (s.setPorts p).ports = p := rfl
@[simp] theorem State.setPorts_instances (p : OutputPorts) : (s.setPorts p).instances = s.instances := rfl
@[simp] theorem State.setPorts_resp (p : OutputPorts) : (s.setPorts p).resp = s.resp := rfl
@[simp] theorem State.setPorts_done (p : OutputPorts) : (s.setPorts p).done = s.done := rfl
@[simp] theorem State.setPorts_reqLines (p : OutputPorts) : (s.setPorts p).reqLines = s.reqLines := rfl
@[simp] theorem State.setPorts_host (p : OutputPorts) : (s.setPorts p).host = s.host := rfl

@[simp] theorem State.setReqLines_standalone (w : ReqWord) : (s.setReqLines w).standalone = s.standalone := rfl
@[simp] theorem State.setReqLines_ports (w : ReqWord) : (s.setReqLines w).ports = s.ports := rfl
@[simp] theorem State.setReqLines_instances (w : ReqWord) : (s.setReqLines w).instances = s.instances := rfl
@[simp] theorem State.setReqLines_resp (w : ReqWord) : (s.setReqLines w).resp = s.resp := rfl
@[simp] theorem State.setReqLines_done (w : ReqWord) : (s.setReqLines w).done = s.done := rfl
@[simp] theorem State.setReqLines_reqLines (w : ReqWord) : (s.setReqLines w).reqLines = w := rfl
@[simp] theorem State.setReqLines_host (w : ReqWord) : (s.setReqLines w).host = s.host := rfl

@[simp] theorem State.setHost_standalone (h : List HostAction) : (s.setHost h).standalone = s.standalone := rfl
@[simp] theorem State.setHost_ports (h : List HostAction) : (s.setHost h).ports = s.ports := rfl
@[simp] theorem State.setHost_instances (h : List HostAction) : (s.setHost h).instances = s.instances := rfl
@[simp] theorem State.setHost_resp (h : List HostAction) : (s.setHost h).resp = s.resp := rfl
@[simp] theorem State.setHost_done (h : List HostAction) : (s.setHost h).done = s.done := rfl
@[simp] theorem State.setHost_reqLines (h : List HostAction) : (s.setHost h).reqLines = s.reqLines := rfl
@[simp] theorem State.setHost_host (h : List HostAction) : (s.setHost h).host = h := rfl

@[simp] theorem resetRegisters_standalone : (resetRegisters s).standalone = EncoderRegs.reset := rfl
@[simp] theorem resetRegisters_ports : (resetRegisters s).ports = s.ports := rfl
@[simp] theorem resetRegisters_instances : (resetRegisters s).instances = EncoderRegs.reset := rfl
@[simp] theorem resetRegisters_resp : (resetRegisters s).resp = 0#57 := rfl
@[simp] theorem resetRegisters_done : (resetRegisters s).done = 0#1 := rfl
@[simp] theorem resetRegisters_reqLines : (resetRegisters s).reqLines = s.reqLines := rfl
@[simp] theorem resetRegisters_host : (resetRegisters s).host = s.host := rfl

theorem OutputPorts.get_set (p : OutputPorts) (a b : Scheme) (o : SubLevels) :
    (p.set a o).get b = if b = a then o else p.get b := by
  cases a <;> cases b <;> rfl

@[simp] theorem OutputPorts.get_set_self (p : OutputPorts) (a : Scheme) (o : SubLevels) :
    (p.set a o).get a = o := by
  simp [OutputPorts.get_set]

theorem OutputPorts.set_comm (p : OutputPorts) {a b : Scheme} (h : a ≠ b) (o q : SubLevels) :
    (p.set a o).set b q = (p.set b q).set a o := by
  cases a <;> cases b <;> first | rfl | exact absurd rfl h

end Sys2Proof.Machine
end

