-- ==== Sys2Proof/Laws/Ops.lean ====
section
/-! SUPPORT. What the shared operations can do, said once each: the checks of a request, the ENCODE
transaction, the STEP of a standalone block, the host's next action, one step. -/

namespace Sys2Proof.Machine

/-! The checks (R65, R66). -/

theorem isBinaryChar_iff (c : Byte) : isBinaryChar c = true ↔ c = 0x30#8 ∨ c = 0x31#8 := by
  simp [isBinaryChar]

theorem lenOK_iff (str : BitString) :
    lenOK str = true ↔ 1 ≤ str.len.toNat ∧ str.len.toNat ≤ 10 := by
  rw [lenOK, Bool.and_eq_true, decide_eq_true_iff, decide_eq_true_iff]

theorem charsOK_iff (str : BitString) :
    charsOK str = true ↔ 1 ≤ str.len.toNat ∧ str.len.toNat ≤ 10 ∧
      ∀ t < str.len.toNat, charAt str t = 0x30#8 ∨ charAt str t = 0x31#8 := by
  simp [charsOK, lenOK_iff, isBinaryChar_iff, and_assoc]

@[simp] theorem length_inputBits (str : BitString) :
    (inputBits str).length = str.len.toNat := by simp [inputBits]

theorem inputBits_getD (str : BitString) {t : Nat} (ht : t < str.len.toNat) :
    (inputBits str).getD t 0#1 = inputBit str t := by
  simp [inputBits, ht]

/-! The ENCODE transaction (R64). -/

variable (str : BitString) (s : State)

theorem encodeTransaction_of_not_charsOK (scheme : Option Scheme) (h : charsOK str = false) :
    encodeTransaction scheme str s = s.answer 1#57 := by
  cases scheme <;> simp [encodeTransaction, checkRequest, h, raiseFailure]

theorem encodeTransaction_none (h : charsOK str = true) :
    encodeTransaction none str s = s.answer 2#57 := by
  simp [encodeTransaction, checkRequest, h, raiseFailure]

theorem encodeTransaction_some (e : Scheme) (h : charsOK str = true) :
    encodeTransaction (some e) str s = completeEncode e str s := by
  simp [encodeTransaction, checkRequest, h]

/-- All an ENCODE can do: fail with one of the two codes and write nothing else, or complete. -/
theorem encodeTransaction_cases (scheme : Option Scheme) :
    (charsOK str = false ∧ encodeTransaction scheme str s = s.answer 1#57) ∨
    (charsOK str = true ∧ scheme = none ∧ encodeTransaction scheme str s = s.answer 2#57) ∨
    (charsOK str = true ∧ ∃ e, scheme = some e ∧
      encodeTransaction scheme str s = completeEncode e str s) := by
  cases h : charsOK str with
  | false => exact .inl ⟨rfl, encodeTransaction_of_not_charsOK str s scheme h⟩
  | true =>
    cases scheme with
    | none => exact .inr (.inl ⟨rfl, rfl, encodeTransaction_none str s h⟩)
    | some e => exact .inr (.inr ⟨rfl, e, rfl, encodeTransaction_some str s e h⟩)

@[simp] theorem completeEncode_standalone (e : Scheme) :
    (completeEncode e str s).standalone = s.standalone := rfl
@[simp] theorem completeEncode_ports (e : Scheme) : (completeEncode e str s).ports = s.ports := rfl
@[simp] theorem completeEncode_done (e : Scheme) : (completeEncode e str s).done = 1#1 := rfl
@[simp] theorem completeEncode_reqLines (e : Scheme) :
    (completeEncode e str s).reqLines = s.reqLines := rfl
@[simp] theorem completeEncode_host (e : Scheme) : (completeEncode e str s).host = s.host := rfl
@[simp] theorem completeEncode_instances (e : Scheme) :
    (completeEncode e str s).instances = (runEncoder e 1#1 (inputBits str) s.instances).1 := rfl
@[simp] theorem completeEncode_resp (e : Scheme) :
    (completeEncode e str s).resp =
      okResponse str.len (inputBits str) (runEncoder e 1#1 (inputBits str) s.instances).2 := rfl

/-- The two slots of bit `t` of a successful response are the outputs of the step for bit `t` (R69). -/
theorem completeEncode_levels (e : Scheme) {t : Nat} (ht : t < str.len.toNat) (h10 : t < 10) :
    let o := (encoderStep e (firstAt 1#1 t) (inputBit str t)
      (runEncoder e 1#1 ((inputBits str).take t) s.instances).1).2
    respLevel (completeEncode e str s).resp (2 * t) = o.l0 ∧
      respLevel (completeEncode e str s).resp (2 * t + 1) = o.l1 := by
  have hl : t < (inputBits str).length := by simpa using ht
  have hg := runEncoder_getD e 1#1 (inputBits str) s.instances hl ⟨0#2, 0#2⟩
  rw [inputBits_getD str ht] at hg
  rw [completeEncode_resp, respLevel_okResponse _ _ _ (by omega),
    respLevel_okResponse _ _ _ (by omega), levelSlots_even, levelSlots_odd, hg]
  exact ⟨rfl, rfl⟩

/-- The slots beyond `2 * LEN` are `00` (R69). -/
theorem completeEncode_levels_beyond (e : Scheme) {k : Nat} (hk : 2 * str.len.toNat ≤ k)
    (h20 : k < 20) : respLevel (completeEncode e str s).resp k = 0b00#2 := by
  rw [completeEncode_resp, respLevel_okResponse _ _ _ h20]
  apply List.getD_eq_default
  rw [length_levelSlots, length_runEncoder, length_inputBits]
  exact hk

/-- The echoed bits (R70). -/
theorem completeEncode_bits (e : Scheme) {t : Nat} (h10 : t < 10) :
    respBit (completeEncode e str s).resp t = if t < str.len.toNat then inputBit str t else 0#1 := by
  rw [completeEncode_resp, respBit_okResponse _ _ _ h10]
  split
  next h => exact inputBits_getD str h
  next h => exact List.getD_eq_default _ _ (by rw [length_inputBits]; omega)

/-! The STEP of a standalone block (R59). -/

variable (e : Scheme) (first bit : Bit)

@[simp] theorem stepStandalone_standalone :
    (stepStandalone e first bit s).standalone = (encoderStep e first bit s.standalone).1 := rfl
@[simp] theorem stepStandalone_ports :
    (stepStandalone e first bit s).ports =
      s.ports.set e (encoderStep e first bit s.standalone).2 := rfl
@[simp] theorem stepStandalone_instances :
    (stepStandalone e first bit s).instances = s.instances := rfl
@[simp] theorem stepStandalone_resp : (stepStandalone e first bit s).resp = s.resp := rfl
@[simp] theorem stepStandalone_done : (stepStandalone e first bit s).done = s.done := rfl
@[simp] theorem stepStandalone_reqLines :
    (stepStandalone e first bit s).reqLines = s.reqLines := rfl
@[simp] theorem stepStandalone_host : (stepStandalone e first bit s).host = s.host := rfl

/-! One operation and one step. -/

/-- All an operation can do: an ENCODE transaction, a STEP of a standalone block, or RESET. -/
theorem exec_cases (i : Instr) (s : State) :
    (∃ scheme str, exec i s = .next (encodeTransaction scheme str s)) ∨
    (∃ e first bit, exec i s = .next (stepStandalone e first bit s)) ∨
    exec i s = .next (resetRegisters s) := by
  cases i with
  | encodeNrzL str => exact .inl ⟨_, str, rfl⟩
  | encodeNrzI str => exact .inl ⟨_, str, rfl⟩
  | encodeAmi str => exact .inl ⟨_, str, rfl⟩
  | encodePt str => exact .inl ⟨_, str, rfl⟩
  | encodeMan str => exact .inl ⟨_, str, rfl⟩
  | encodeDm str => exact .inl ⟨_, str, rfl⟩
  | encodeReserved110 str => exact .inl ⟨none, str, rfl⟩
  | encodeReserved111 str => exact .inl ⟨none, str, rfl⟩
  | stepNrzL f b => exact .inr (.inl ⟨_, f, b, rfl⟩)
  | stepNrzI f b => exact .inr (.inl ⟨_, f, b, rfl⟩)
  | stepAmi f b => exact .inr (.inl ⟨_, f, b, rfl⟩)
  | stepPt f b => exact .inr (.inl ⟨_, f, b, rfl⟩)
  | stepMan f b => exact .inr (.inl ⟨_, f, b, rfl⟩)
  | stepDm f b => exact .inr (.inl ⟨_, f, b, rfl⟩)
  | reset => exact .inr (.inr rfl)

/-- A decoded request word runs an ENCODE transaction on that word's operand fields. -/
theorem exec_decodeRequest (req : ReqWord) (s : State) :
    ∃ scheme, exec (decode (.request req)) s =
      .next (encodeTransaction scheme (reqString req) s) := by
  simp only [decode, decodeRequest]
  split <;> exact ⟨_, rfl⟩

/-- All one step can do, by what the host does next. -/
theorem step_cases (s : State) :
    (s.host = [] ∧ step s = .next s) ∨
    (∃ w rest, s.host = .presentReq w :: rest ∧
      step s = .next ((s.setHost rest).setReqLines w)) ∨
    (∃ rest, s.host = .encode :: rest ∧
      step s = exec (decode (.request s.reqLines)) (s.setHost rest)) ∨
    (∃ e inputs rest, s.host = .step e inputs :: rest ∧
      step s = exec (decode (.step e inputs)) (s.setHost rest)) ∨
    (∃ rest, (s.host = .reset :: rest ∨ s.host = .resetDuringEncode :: rest) ∧
      step s = .next (resetRegisters (s.setHost rest))) ∨
    (∃ rest, s.host = .encodeOverlapped :: rest ∧ step s = .refused .overlappingEncode) := by
  unfold step nextAction
  cases h : s.host with
  | nil => exact .inl ⟨rfl, rfl⟩
  | cons a rest =>
    cases a with
    | presentReq w => exact .inr (.inl ⟨w, rest, rfl, rfl⟩)
    | encode => exact .inr (.inr (.inl ⟨rest, rfl, rfl⟩))
    | step e inputs => exact .inr (.inr (.inr (.inl ⟨e, inputs, rest, rfl, rfl⟩)))
    | reset => exact .inr (.inr (.inr (.inr (.inl ⟨rest, .inl rfl, rfl⟩))))
    | resetDuringEncode => exact .inr (.inr (.inr (.inr (.inl ⟨rest, .inr rfl, rfl⟩))))
    | encodeOverlapped => exact .inr (.inr (.inr (.inr (.inr ⟨rest, rfl, rfl⟩))))

/-- A decoded input pair runs the STEP of the block it is issued to. -/
theorem exec_decodeStep (e : Scheme) (inputs : BitVec 2) (s : State) :
    exec (decode (.step e inputs)) s =
      .next (stepStandalone e (pairFirst inputs) (pairBit inputs) s) := by
  cases e <;> rfl

/-- Several steps are the first and then the rest. -/
theorem run_succ_of_step {s t : State} (h : step s = .next t) (k : Nat) :
    Host.Core.run core (k + 1) s = Host.Core.run core k t := by
  have h' : core.step s = .next t := h
  simp [Host.Core.run, h']

/-- A word placed for issue is what the next step runs, at the state it was placed in but for the
`REQ` lines. -/
theorem step_placeIssue (s : State) (i : Issue) :
    step (placeIssue s i) = exec (decode i)
      (match i with
        | .request req => s.setReqLines req
        | _ => s) := by
  cases i <;> rfl

end Sys2Proof.Machine
end

