-- ==== Sys2Proof/Laws/PerInstr.lean ====
section
/-! SUPPORT. Statements about every operation as syntax, one lemma per constructor of Instr. -/

namespace Sys2Proof.Laws.EncodeFits

/-- The encoder's word fits the port it is issued at: the decoder on bits accepts it (R59, R61). -/
def Statement (i : Instr) : Prop :=
  issueWord (encode i) < 2 ^ portWidth (issuePort (encode i))

theorem encodeNrzL (str : BitString) : Statement (.encodeNrzL str) := BitVec.isLt _
theorem encodeNrzI (str : BitString) : Statement (.encodeNrzI str) := BitVec.isLt _
theorem encodeAmi (str : BitString) : Statement (.encodeAmi str) := BitVec.isLt _
theorem encodePt (str : BitString) : Statement (.encodePt str) := BitVec.isLt _
theorem encodeMan (str : BitString) : Statement (.encodeMan str) := BitVec.isLt _
theorem encodeDm (str : BitString) : Statement (.encodeDm str) := BitVec.isLt _
theorem encodeReserved110 (str : BitString) : Statement (.encodeReserved110 str) := BitVec.isLt _
theorem encodeReserved111 (str : BitString) : Statement (.encodeReserved111 str) := BitVec.isLt _
theorem stepNrzL (first bit : Bit) : Statement (.stepNrzL first bit) := BitVec.isLt _
theorem stepNrzI (first bit : Bit) : Statement (.stepNrzI first bit) := BitVec.isLt _
theorem stepAmi (first bit : Bit) : Statement (.stepAmi first bit) := BitVec.isLt _
theorem stepPt (first bit : Bit) : Statement (.stepPt first bit) := BitVec.isLt _
theorem stepMan (first bit : Bit) : Statement (.stepMan first bit) := BitVec.isLt _
theorem stepDm (first bit : Bit) : Statement (.stepDm first bit) := BitVec.isLt _
theorem reset : Statement .reset := Nat.one_pos

end Sys2Proof.Laws.EncodeFits
end

