-- ==== Sys2Proof/Tests/Slice0.lean ====
section
/-! SUPPORT. Tests: decoded words written out from spec/30_encoding.md, one-step tests with the expected values of
spec/95_test_vectors.md, the WellFormed smoke test, and witnesses for the hypotheses of the statements. -/

namespace Sys2Proof.Tests

open Sys2Proof.Machine Sys2Proof.Stated

/-! Helpers. -/

/-- A bit string: `1` is `0x31`, `0` is `0x30`, `0x00` beyond (R51, R62). -/
def str (bits : List Bool) : BitString :=
  { len := BitVec.ofNat 4 bits.length
    chars := bits.map (fun b => if b then 0x31#8 else 0x30#8) ++ List.replicate (10 - bits.length) 0x00#8 }

def s1011 : BitString := str [true, false, true, true]
def s1 : BitString := str [true]
def s0 : BitString := str [false]
/-- `"0101010101"`, the longest legal length. -/
def s01x5 : BitString := str [false, true, false, true, false, true, false, true, false, true]
def ones10 : BitString := str [true, true, true, true, true, true, true, true, true, true]
/-- `"10a1"`: a non-binary character (95_test_vectors.md E9). -/
def s10a1 : BitString := { s1011 with chars := [0x31#8, 0x30#8, 0x61#8, 0x31#8, 0#8, 0#8, 0#8, 0#8, 0#8, 0#8] }
/-- `LEN = 11` with ten characters, as 95_test_vectors.md E8 gives an 11-character string (with others). -/
def s11 : BitString := { s01x5 with len := 11#4 }
def sLen0 : BitString := { s1011 with len := 0#4 }

/-- `RESP`, `DONE` and the private registers after an operation. -/
def answered (i : Instr) (s : State) : Option (RespWord × Bit × EncoderRegs) :=
  match exec i s with
  | .next t => some (t.resp, t.done, t.instances)
  | _ => none

/-- `RESP` after an operation. -/
def respOf (i : Instr) (s : State) : RespWord := ((answered i s).map (·.1)).getD 0#57

/-- A block's outputs and the standalone registers after an operation. -/
def stepped (i : Instr) (block : Scheme) (s : State) : Option (SubLevels × EncoderRegs) :=
  match exec i s with
  | .next t => some (readOutputs t block, t.standalone)
  | _ => none

/-- Every encoder register at the reverse of its reset value. -/
def otherRegs : EncoderRegs := { nrziLast := 1#1, amiPol := 1#1, ptPol := 1#1, dmLast := 0#1 }

/-- A state in which every encoder register differs from its reset value. -/
def other : State := { State.reset with standalone := otherRegs, instances := otherRegs }

/-! WellFormed refuses a request that does not have ten character slots. -/

theorem test_nine_slots_ill_formed :
    (Instr.encodeNrzL { len := 9#4, chars := List.replicate 9 0x31#8 }).WellFormed = false := by decide

theorem test_eleven_slots_ill_formed :
    (Instr.encodeReserved111 { len := 11#4, chars := List.replicate 11 0x31#8 }).WellFormed = false := by decide

theorem test_ten_slots_well_formed : (Instr.encodeDm s1011).WellFormed = true := by decide

/-! Decoding: words written out field by field from R48, `CHAR[9]` first and `SCHEME` last, and the pair
`{first, bit}` of R59. -/

theorem test_decode_encodeNrzL : decode (.request (0x00#8 ++ 0x00#8 ++ 0x00#8 ++ 0x00#8 ++ 0x00#8 ++
    0x00#8 ++ 0x31#8 ++ 0x31#8 ++ 0x30#8 ++ 0x31#8 ++ 0b0100#4 ++ 0b000#3)) = .encodeNrzL s1011 := by decide

theorem test_decode_encodeNrzI : decode (.request (0x00#8 ++ 0x00#8 ++ 0x00#8 ++ 0x00#8 ++ 0x00#8 ++
    0x00#8 ++ 0x31#8 ++ 0x31#8 ++ 0x30#8 ++ 0x31#8 ++ 0b0100#4 ++ 0b001#3)) = .encodeNrzI s1011 := by decide

theorem test_decode_encodeAmi : decode (.request (0x31#8 ++ 0x30#8 ++ 0x31#8 ++ 0x30#8 ++ 0x31#8 ++
    0x30#8 ++ 0x31#8 ++ 0x30#8 ++ 0x31#8 ++ 0x30#8 ++ 0b1010#4 ++ 0b010#3)) = .encodeAmi s01x5 := by decide

theorem test_decode_encodePt : decode (.request (0x31#8 ++ 0x31#8 ++ 0x31#8 ++ 0x31#8 ++ 0x31#8 ++
    0x31#8 ++ 0x31#8 ++ 0x31#8 ++ 0x31#8 ++ 0x31#8 ++ 0b1010#4 ++ 0b011#3)) = .encodePt ones10 := by decide

theorem test_decode_encodeMan : decode (.request (0x00#8 ++ 0x00#8 ++ 0x00#8 ++ 0x00#8 ++ 0x00#8 ++
    0x00#8 ++ 0x00#8 ++ 0x00#8 ++ 0x00#8 ++ 0x31#8 ++ 0b0001#4 ++ 0b100#3)) = .encodeMan s1 := by decide

theorem test_decode_encodeDm : decode (.request (0x00#8 ++ 0x00#8 ++ 0x00#8 ++ 0x00#8 ++ 0x00#8 ++
    0x00#8 ++ 0x00#8 ++ 0x00#8 ++ 0x00#8 ++ 0x30#8 ++ 0b0001#4 ++ 0b101#3)) = .encodeDm s0 := by decide

theorem test_decode_encodeReserved110 : decode (.request (0x00#8 ++ 0x00#8 ++ 0x00#8 ++ 0x00#8 ++ 0x00#8 ++
    0x00#8 ++ 0x31#8 ++ 0x61#8 ++ 0x30#8 ++ 0x31#8 ++ 0b0100#4 ++ 0b110#3)) =
      .encodeReserved110 s10a1 := by decide

theorem test_decode_encodeReserved111 : decode (.request (0x31#8 ++ 0x30#8 ++ 0x31#8 ++ 0x30#8 ++ 0x31#8 ++
    0x30#8 ++ 0x31#8 ++ 0x30#8 ++ 0x31#8 ++ 0x30#8 ++ 0b1011#4 ++ 0b111#3)) =
      .encodeReserved111 s11 := by decide

theorem test_decode_stepNrzL : decode (.step .nrzL 0b10#2) = .stepNrzL 1#1 0#1 := by decide
theorem test_decode_stepNrzI : decode (.step .nrzI 0b01#2) = .stepNrzI 0#1 1#1 := by decide
theorem test_decode_stepAmi : decode (.step .bipolarAMI 0b10#2) = .stepAmi 1#1 0#1 := by decide
theorem test_decode_stepPt : decode (.step .pseudoternary 0b01#2) = .stepPt 0#1 1#1 := by decide
theorem test_decode_stepMan : decode (.step .manchester 0b10#2) = .stepMan 1#1 0#1 := by decide
theorem test_decode_stepDm :
    decode (.step .differentialManchester 0b01#2) = .stepDm 0#1 1#1 := by decide
theorem test_decode_reset : decode .reset = .reset := by decide

theorem test_decodeBits_rejects_by_name :
    decodeBits .request 86 0 = .error .wrongWidth ∧
    decodeBits .request 87 (2 ^ 87) = .error .bitsAboveWidth ∧
    decodeBits (.encoder .manchester) 3 0 = .error .wrongWidth := by decide

/-- The request word of E2, from its text form (R62). -/
theorem test_assemble_ami : assemble (.encode .bipolarAMI ['1', '0', '1', '1']) =
    some (.request 0x00000000000018989818A2#87) := by decide

/-! ENCODE: responses of 95_test_vectors.md sections 2.2, 2.3 and 3. -/

theorem test_encodeNrzL : answered (.encodeNrzL s01x5) other =
    some (0x155282828282850#57, 1#1, otherRegs) := by decide

theorem test_encodeNrzI : answered (.encodeNrzI s1011) State.reset =
    some (0x006800000282AA0#57, 1#1, { EncoderRegs.reset with nrziLast := 1#1 }) := by decide

theorem test_encodeNrzI_full : answered (.encodeNrzI s01x5) other =
    some (0x1552802A802A850#57, 1#1, otherRegs) := by decide

theorem test_encodeAmi_restarts_at_plus : answered (.encodeAmi s1011) other =
    some (0x0068000002F82A0#57, 1#1, otherRegs) := by decide

theorem test_encodeAmi_full : answered (.encodeAmi ones10) State.reset =
    some (0x1FFFAFAFAFAFAD0#57, 1#1, EncoderRegs.reset) := by decide

theorem test_encodePt : answered (.encodePt s01x5) other =
    some (0x1550287828782D0#57, 1#1, otherRegs) := by decide

theorem test_encodeMan : answered (.encodeMan s01x5) State.reset =
    some (0x1550A0A0A0A0A50#57, 1#1, EncoderRegs.reset) := by decide

theorem test_encodeDm : answered (.encodeDm s1011) State.reset =
    some (0x006800000088A20#57, 1#1, { EncoderRegs.reset with dmLast := 0#1 }) := by decide

theorem test_encodeDm_full : answered (.encodeDm s01x5) other =
    some (0x15508A208A208D0#57, 1#1, otherRegs) := by decide

theorem test_encodeReserved110 : answered (.encodeReserved110 s1011) other =
    some (0x000000000000002#57, 1#1, otherRegs) := by decide

theorem test_encodeReserved111_invalid_wins : answered (.encodeReserved111 s10a1) other =
    some (0x000000000000001#57, 1#1, otherRegs) := by decide

/-- A failed request steps no encoder, as in P2, operation 3 (with other characters below the length). -/
theorem test_encodeAmi_length_11 : answered (.encodeAmi s11) other =
    some (0x000000000000001#57, 1#1, otherRegs) := by decide

/-! STEP: rows of 95_test_vectors.md section 2.1. -/

theorem test_stepNrzL : stepped (.stepNrzL 0#1 1#1) .nrzL other = some (⟨0b01#2, 0b01#2⟩, otherRegs) := by decide
theorem test_stepNrzI : stepped (.stepNrzI 0#1 1#1) .nrzI other =
    some (⟨0b00#2, 0b00#2⟩, { otherRegs with nrziLast := 0#1 }) := by decide
theorem test_stepNrzI_first : stepped (.stepNrzI 1#1 0#1) .nrzI other =
    some (⟨0b00#2, 0b00#2⟩, { otherRegs with nrziLast := 0#1 }) := by decide
theorem test_stepAmi : stepped (.stepAmi 0#1 1#1) .bipolarAMI other =
    some (⟨0b11#2, 0b11#2⟩, { otherRegs with amiPol := 0#1 }) := by decide
theorem test_stepAmi_first_zero : stepped (.stepAmi 1#1 0#1) .bipolarAMI other =
    some (⟨0b00#2, 0b00#2⟩, { otherRegs with amiPol := 0#1 }) := by decide
theorem test_stepPt : stepped (.stepPt 0#1 0#1) .pseudoternary other =
    some (⟨0b11#2, 0b11#2⟩, { otherRegs with ptPol := 0#1 }) := by decide
theorem test_stepPt_first : stepped (.stepPt 1#1 0#1) .pseudoternary other =
    some (⟨0b01#2, 0b01#2⟩, otherRegs) := by decide
theorem test_stepMan : stepped (.stepMan 0#1 0#1) .manchester other = some (⟨0b00#2, 0b01#2⟩, otherRegs) := by decide
theorem test_stepDm : stepped (.stepDm 0#1 0#1) .differentialManchester State.reset =
    some (⟨0b01#2, 0b00#2⟩, { EncoderRegs.reset with dmLast := 0#1 }) := by decide
theorem test_stepDm_first : stepped (.stepDm 1#1 1#1) .differentialManchester other =
    some (⟨0b00#2, 0b01#2⟩, { otherRegs with dmLast := 1#1 }) := by decide

/-! RESET, the host's actions, the consumer. -/

theorem test_reset : answered .reset { other with resp := 5#57, done := 1#1 } =
    some (0#57, 0#1, EncoderRegs.reset) := by decide

/-- 93_implementation_defined.md I6. -/
theorem test_overlap_refused : (match step { other with host := [.encodeOverlapped] } with
    | .refused r => decide (r = .overlappingEncode)
    | _ => false) = true := by decide

/-- The word of 95_test_vectors.md E1, placed for the next step of the reset machine. -/
theorem test_withFetchWord : (match step (State.reset.withFetchWord 88 0x00000000000018989818A1) with
    | .next t => decide (t.resp = 0x006800000282AA0#57 ∧ t.host = [])
    | _ => false) = true := by decide

theorem test_decodeTableWord : decodeTableWord 8 5 = some (.encodeDm ⟨0#4, List.replicate 10 0#8⟩) ∧
    decodeTableWord 8 6 = some (.encodeReserved110 ⟨0#4, List.replicate 10 0#8⟩) ∧
    decodeTableWord 0 0 = some .reset := by decide

/-- 95_test_vectors.md E6, `"1"`: levels `0,1`, read by a consumer. -/
theorem test_consumer : consumeResponse 0x000800000000208#57 =
    .ok (.encoded [⟨0, 0, .zero⟩, ⟨0, 1, .plusOne⟩] [1#1]) := by decide

theorem test_consumer_refuses_level_10 : consumeResponse 0x000800000000308#57 = .error .reservedLevel := by decide

/-! Witnesses: for each statement with hypotheses, values that meet them together; where a statement has
several clauses, values for each, at a boundary of its range. -/

theorem legal_shortest : LegalString s1 := by unfold LegalString; decide
theorem legal_longest : LegalString s01x5 := by unfold LegalString; decide
theorem illegal_examples : ¬ LegalString sLen0 ∧ ¬ LegalString s11 ∧ ¬ LegalString s10a1 := by unfold LegalString; decide

theorem witness_DecodeOfEncodeIsTheOperation : (Instr.encodeNrzL s1).WellFormed = true ∧
    (Instr.encodeReserved111 s11).WellFormed = true ∧ (Instr.stepDm 1#1 1#1).WellFormed = true := by decide

theorem witness_OperationIsSelected :
    ((0#87 : ReqWord).extractLsb' 0 3).toNat = schemeNumber .nrzL ∧
    ((1#87 : ReqWord).extractLsb' 0 3).toNat = schemeNumber .nrzI ∧
    ((2#87 : ReqWord).extractLsb' 0 3).toNat = schemeNumber .bipolarAMI ∧
    ((3#87 : ReqWord).extractLsb' 0 3).toNat = schemeNumber .pseudoternary ∧
    ((4#87 : ReqWord).extractLsb' 0 3).toNat = schemeNumber .manchester ∧
    ((0x18989898989898989898D5#87 : ReqWord).extractLsb' 0 3).toNat = schemeNumber .differentialManchester ∧
    ((6#87 : ReqWord).extractLsb' 0 3).toNat = 6 ∧
    ((BitVec.allOnes 87 : ReqWord).extractLsb' 0 3).toNat = 7 := by decide

theorem witness_TextForms : (∀ c ∈ [' '], 0x20 ≤ c.toNat ∧ c.toNat ≤ 0x7e) ∧
    (∀ c ∈ List.replicate 10 '~', 0x20 ≤ c.toNat ∧ c.toNat ≤ 0x7e) ∧
    (List.replicate 10 '~').length = 10 ∧ ([] : List Char).length = 0 ∧
    10 < (List.replicate 11 '1').length :=
  ⟨fun c h => by rw [List.mem_singleton.mp h]; decide, fun c h => by rw [List.eq_of_mem_replicate h]; decide, by simp, rfl, by simp⟩

theorem witness_NrzIFirstStepIsAStepFromZero : State.reset.standalone.nrziLast = 0#1 := by decide
theorem witness_DmFirstStepIsAStepFromOne : State.reset.standalone.dmLast = 1#1 := by decide

theorem witness_SchemeFields :
    (0x18989898989898989898D0#87 : ReqWord).extractLsb' 0 3 = 0b000#3 ∧
    (0x18989898989898989898D1#87 : ReqWord).extractLsb' 0 3 = 0b001#3 ∧
    (0x18989898989898989898D2#87 : ReqWord).extractLsb' 0 3 = 0b010#3 ∧
    (0x18989898989898989898D3#87 : ReqWord).extractLsb' 0 3 = 0b011#3 ∧
    (0x18989898989898989898D4#87 : ReqWord).extractLsb' 0 3 = 0b100#3 ∧
    (0x18989898989898989898D5#87 : ReqWord).extractLsb' 0 3 = 0b101#3 := by decide

/-- For the statements whose hypothesis is LegalString str: the six ENCODE results,
ReservedSchemeGivesUnknownScheme, SelectedRegisterHoldsTheLastLevel, the laws of the six schemes and the closed
form; and their inner bounds `t < LEN`, `0 < t`, `u < LEN`. -/
theorem witness_LegalString : LegalString s1 ∧ LegalString s01x5 ∧
    0 < s1.len.toNat ∧ 9 < s01x5.len.toNat ∧ 0 < 9 := by unfold LegalString; decide

/-- The two values a bit can have in the laws' clauses, and a bit equal to the one before it and not. -/
theorem witness_LawClauses : bit s1011 0 = 1#1 ∧ bit s1011 1 = 0#1 ∧
    bit s1011 1 ≠ bit s1011 0 ∧ bit s1011 3 = bit s1011 2 := by decide

/-- The two cases of the last polarity of R31: a last non-zero level, and none. -/
theorem witness_SelectedRegisterHoldsTheLastLevel :
    (level (respOf (.encodeAmi s1) State.reset) 1 ≠ 0b00#2 ∧
      ∀ j < 20, 1 < j → level (respOf (.encodeAmi s1) State.reset) j = 0b00#2) ∧
    (∀ k < 20, level (respOf (.encodeAmi s0) State.reset) k = 0b00#2) := by decide

theorem witness_IsEncode_of_scheme : IsEncode (.encodeDm s01x5) s01x5 := .inl ⟨.differentialManchester, rfl⟩
theorem witness_IsEncode_reserved : IsEncode (.encodeReserved110 s1) s1 ∧ IsEncode (.encodeReserved111 s1) s1 :=
  ⟨.inr (.inl rfl), .inr (.inr rfl)⟩

theorem witness_IllegalStringGivesInvalidInput :
    IsEncode (.encodeReserved111 s11) s11 ∧ ¬ LegalString s11 ∧
    IsEncode (.encodeNrzL sLen0) sLen0 ∧ ¬ LegalString sLen0 :=
  ⟨.inr (.inr rfl), by unfold LegalString; decide, .inl ⟨.nrzL, rfl⟩, by unfold LegalString; decide⟩

/-- The second clauses of ReservedSchemeGivesUnknownScheme and IllegalStringGivesInvalidInput: an operation
that leaves the failure where it did not stand before. -/
theorem witness_FailureAppears :
    (State.reset.resp ≠ 2#57 ∧ respOf (.encodeReserved110 s1) State.reset = 2#57) ∧
    (State.reset.resp ≠ 1#57 ∧ respOf (.encodeNrzL s11) State.reset = 1#57) := by decide

theorem witness_FailedEncodeWritesOnlyTheErrorResponse :
    (IsEncode (.encodePt s11) s11 ∧ ¬ LegalString s11) ∧
    (IsEncode (.encodeReserved110 s1) s1 ∧ LegalString s1) :=
  ⟨⟨.inl ⟨.pseudoternary, rfl⟩, illegal_examples.2.1⟩, .inr (.inl rfl), legal_shortest⟩

theorem witness_SlotsBeyondLengthAreIgnored :
    s1.len = { s01x5 with len := 1#4, chars := 0x31#8 :: s01x5.chars.tail }.len ∧
    (∀ t < s1.len.toNat, s1.chars[t]? = (0x31#8 :: s01x5.chars.tail)[t]?) ∧
    s1.chars ≠ 0x31#8 :: s01x5.chars.tail ∧ ¬ (1 ≤ s11.len.toNat ∧ s11.len.toNat ≤ 10) := by decide

theorem witness_OnlyTheSelectedInstanceIsStepped : Scheme.nrzL ≠ .nrzI ∧ Scheme.nrzL ≠ .bipolarAMI ∧
    Scheme.nrzL ≠ .pseudoternary ∧ Scheme.nrzL ≠ .differentialManchester := by decide

theorem witness_ResponseHasTwoLevelsPerBit : IsEncode (.encodePt s01x5) s01x5 ∧
    status (respOf (.encodePt s01x5) State.reset) = 0b00#2 := ⟨.inl ⟨.pseudoternary, rfl⟩, by decide⟩

theorem witness_LevelsDependOnTheBitsSoFar : LegalString s1011 ∧ LegalString (str [true, false]) ∧
    2 ≤ s1011.len.toNat ∧ 2 ≤ (str [true, false]).len.toNat ∧
    ∀ t < 2, bit s1011 t = bit (str [true, false]) t := by unfold LegalString; decide

theorem witness_DoneIsClearedByResetOnly : (match step { State.reset with done := 1#1, host := [.reset] } with
    | .next t => decide (t.done = 0#1)
    | _ => false) = true := by decide

theorem witness_RespIsWritten : (match step { State.reset with host := [.encode] } with
    | .next t => decide (t.resp ≠ State.reset.resp)
    | _ => false) = true := by decide

/-- `"1"` in NRZ-I (`REQ = 0x1889`) changes a private register. -/
theorem witness_InstanceRegistersAreWritten :
    (match step { State.reset with reqLines := 0x1889#87, host := [.encode] } with
    | .next t => decide (t.instances ≠ State.reset.instances)
    | _ => false) = true := by decide

/-- A step that changes the register of each standalone block that has one. -/
theorem witness_StandaloneRegistersAreWritten :
    (match step { State.reset with host := [.step .nrzI 0b01#2] } with
    | .next t => decide (t.standalone.nrziLast ≠ State.reset.standalone.nrziLast)
    | _ => false) = true ∧
    (match step { State.reset with host := [.step .bipolarAMI 0b11#2] } with
    | .next t => decide (t.standalone.amiPol ≠ State.reset.standalone.amiPol)
    | _ => false) = true ∧
    (match step { State.reset with host := [.step .pseudoternary 0b10#2] } with
    | .next t => decide (t.standalone.ptPol ≠ State.reset.standalone.ptPol)
    | _ => false) = true ∧
    (match step { State.reset with host := [.step .differentialManchester 0b00#2] } with
    | .next t => decide (t.standalone.dmLast ≠ State.reset.standalone.dmLast)
    | _ => false) = true := by decide

theorem witness_OnlyOverlappingEncodesAreRefused :
    ¬ ∃ rest, State.reset.host = HostAction.encodeOverlapped :: rest := by
  rintro ⟨rest, h⟩
  cases h

theorem witness_FetchWordIsRunNext : (decodeTableWord 8 3).isSome = true ∧
    (decodeTableWord 88 0x18989898989898989898D5).isSome = true ∧ (decodeTableWord 0 0).isSome = true := by decide

theorem witness_OperationsOfDifferentInstancesCommute :
    IsEncode (.encodeNrzL s1) s1 ∧ Scheme.nrzL ≠ .manchester := ⟨.inl ⟨.nrzL, rfl⟩, by decide⟩

/-- A state with outputs at their initial value, and this `RESP` and `DONE`. -/
def withResp (r : RespWord) (done : Bit) : State := { State.reset with resp := r, done := done }

theorem inv_withResp {r : RespWord} {done : Bit} (h : RespLegal (withResp r done)) : Inv (withResp r done) :=
  ⟨h, show PortsLegal State.reset from fun block => by cases block <;> decide⟩

theorem witness_EveryStepKeepsTheInvariant :
    Inv { State.reset with reqLines := 0x1889#87, host := [.encode] } ∧
    (match step { State.reset with reqLines := 0x1889#87, host := [.encode] } with
      | .next t => decide (t.done = 1#1 ∧ t.host = [])
      | _ => false) = true :=
  ⟨⟨rfl, show PortsLegal State.reset from fun block => by cases block <;> decide⟩, by decide⟩

/-- The response `"1011"` gets in NRZ-L (95_test_vectors.md section 2.2) is a successful response word. -/
theorem okWord_example : OkWord 0x0068000002A82A0#57 := by
  unfold OkWord LevelsProduced
  decide

theorem witness_ConsumerReadsEveryResponse :
    (Inv (withResp 0#57 0#1) ∧ (withResp 0#57 0#1).done = 0#1) ∧
    (Inv (withResp 0x0068000002A82A0#57 1#1) ∧ respStatus 0x0068000002A82A0#57 = 0b00#2) ∧
    (Inv (withResp 1#57 1#1) ∧ respStatus 1#57 = 0b01#2) ∧
    (Inv (withResp 2#57 1#1) ∧ respStatus 2#57 = 0b10#2) :=
  ⟨⟨inv_withResp rfl, rfl⟩, ⟨inv_withResp (.inl okWord_example), by decide⟩,
    ⟨inv_withResp (.inr (.inl rfl)), by decide⟩, ⟨inv_withResp (.inr (.inr rfl)), by decide⟩⟩

theorem witness_ConsumerRefusesWhatIsNeverProduced :
    respStatus 3#57 = 0b11#2 ∧
    (respStatus 4#57 = 0b00#2 ∧ (respCount 4#57).toNat % 2 = 1) ∧
    (respStatus 0x58#57 = 0b00#2 ∧ 20 < (respCount 0x58#57).toNat) ∧
    (respStatus 0x108#57 = 0b00#2 ∧ (respCount 0x108#57).toNat % 2 = 0 ∧ (respCount 0x108#57).toNat ≤ 20 ∧
      ∃ k < (respCount 0x108#57).toNat, respLevel 0x108#57 k = 0b10#2) := by decide

theorem witness_RequestWordGivesTheSpecifiedResponse :
    ¬ LegalString (requestFields 0x0000000000000000000007#87) ∧
    (LegalString (requestFields 0x000000000000001898189E#87) ∧
      6 ≤ ((0x000000000000001898189E#87 : ReqWord).extractLsb' 0 3).toNat) ∧
    (LegalString (requestFields 0x18989898989898989898D5#87) ∧
      ((0x18989898989898989898D5#87 : ReqWord).extractLsb' 0 3).toNat =
        schemeNumber .differentialManchester) := by unfold LegalString; decide

theorem witness_StandaloneBlockAgreesWithTheDispatcher :
    LegalString s01x5 ∧ 0 < s01x5.len.toNat ∧ 9 < s01x5.len.toNat := by unfold LegalString; decide

end Sys2Proof.Tests
end

section
/-! PROOFS. Level codes (30_encoding.md R47) and the consumer's reading of a response (R55 to R58): the laws of
`levelOfCode`, `statusOfCode`, `levelStep` and `consumeResponse`, and the two statements that rest on them. -/

namespace Sys2Proof.Machine

/-! A level and its code (R47). -/

@[simp] theorem levelOfCode_levelCode (l : Level) : levelOfCode (levelCode l) = some l := by
  cases l <;> rfl

/-- The code `10` is the only one that is no level. -/
theorem levelOfCode_eq_none_iff (c : LevelCode) : levelOfCode c = none ↔ c = 0b10#2 := by
  revert c; decide

/-- A level decoded from a code has that code: `levelOfCode` is injective where it answers. -/
theorem levelCode_of_levelOfCode {c : LevelCode} {l : Level} (h : levelOfCode c = some l) :
    levelCode l = c := by
  revert c
  cases l <;> decide

/-- Settles O7: the three values and the round trip level by level, the refusal over the four codes. -/
theorem levelCodeIsTwosComplement : Obligations.LevelCodeIsTwosComplement :=
  ⟨rfl, rfl, rfl, levelOfCode_levelCode, levelOfCode_eq_none_iff⟩

/-! Reading a list that may be refused at an element. -/

/-- A reading of a list succeeds with `ys` exactly when every element is read, to the element of `ys` there. -/
theorem mapM_eq_some_iff {α β : Type} (f : α → Option β) (xs : List α) (ys : List β) :
    xs.mapM f = some ys ↔ xs.map f = ys.map some := by
  induction xs generalizing ys with
  | nil => cases ys <;> simp
  | cons x xs ih =>
    cases ys with
    | nil => simp [List.mapM_cons, Option.bind_eq_some_iff]
    | cons y ys => simp [List.mapM_cons, Option.bind_eq_some_iff, ih]

/-- A reading of a list is refused exactly when one of its elements is. -/
theorem mapM_eq_none_iff {α β : Type} (f : α → Option β) (xs : List α) :
    xs.mapM f = none ↔ ∃ x ∈ xs, f x = none := by
  induction xs with
  | nil => simp
  | cons x xs ih =>
    cases hx : f x with
    | none => simp [List.mapM_cons, hx]
    | some y =>
      have htail : (x :: xs).mapM f = none ↔ xs.mapM f = none := by
        cases hxs : xs.mapM f <;> simp [List.mapM_cons, hx, hxs]
      rw [htail, ih]
      simp [hx]

/-! The slots of a response (R14, R57). -/

theorem levelStep_eq_none_iff (r : RespWord) (k : Nat) :
    levelStep r k = none ↔ respLevel r k = 0b10#2 := by
  rw [levelStep, Option.map_eq_none_iff, levelOfCode_eq_none_iff]

theorem levelStep_eq_some {r : RespWord} {k : Nat} {x : LevelStep} (h : levelStep r k = some x) :
    x.bit = k / 2 ∧ x.half = k % 2 ∧ levelCode x.level = respLevel r k := by
  obtain ⟨l, hl, rfl⟩ := Option.map_eq_some_iff.mp h
  exact ⟨rfl, rfl, levelCode_of_levelOfCode hl⟩

/-- `n` slots are read unless one of them holds the code `10`. -/
theorem exists_mapM_levelStep {r : RespWord} {n : Nat} (h : ∀ k < n, respLevel r k ≠ 0b10#2) :
    ∃ steps, (List.range n).mapM (levelStep r) = some steps := by
  rw [← Option.ne_none_iff_exists', ne_eq, mapM_eq_none_iff]
  rintro ⟨k, hk, hnone⟩
  exact h k (List.mem_range.mp hk) ((levelStep_eq_none_iff r k).mp hnone)

/-- The steps that `n` slots are read as: `n` of them, step `k` the one of slot `k`. -/
theorem steps_of_mapM_levelStep {r : RespWord} {n : Nat} {steps : List LevelStep}
    (h : (List.range n).mapM (levelStep r) = some steps) :
    steps.length = n ∧ ∀ (k : Nat) (x : LevelStep), steps[k]? = some x → levelStep r k = some x := by
  rw [mapM_eq_some_iff] at h
  have hlen : steps.length = n := by simpa using (congrArg List.length h).symm
  refine ⟨hlen, fun k x hx => ?_⟩
  have hk : k < n := hlen ▸ (List.getElem?_eq_some_iff.mp hx).1
  simpa [hk, hx] using congrArg (·[k]?) h

/-! The consumer's reading, by STATUS (R55). -/

@[simp] theorem statusOfCode_statusCode (st : Status) : statusOfCode (statusCode st) = some st := by
  cases st <;> rfl

theorem consumeResponse_of_invalidInput {r : RespWord} (h : respStatus r = statusCode .invalidInput) :
    consumeResponse r = .ok (.failed .invalidInput) := by
  simp [consumeResponse, h]

theorem consumeResponse_of_unknownScheme {r : RespWord} (h : respStatus r = statusCode .unknownScheme) :
    consumeResponse r = .ok (.failed .unknownScheme) := by
  simp [consumeResponse, h]

/-- An `OK` response with a legal count whose slots are all read is read as those steps and its echoed bits. -/
theorem consumeResponse_of_ok {r : RespWord} {steps : List LevelStep}
    (hs : respStatus r = statusCode .ok) (hpos : 0 < (respCount r).toNat)
    (heven : (respCount r).toNat % 2 = 0) (hmax : (respCount r).toNat ≤ 20)
    (hsteps : (List.range (respCount r).toNat).mapM (levelStep r) = some steps) :
    consumeResponse r =
      .ok (.encoded steps ((List.range ((respCount r).toNat / 2)).map (respBit r))) := by
  have hlegal : ¬ ((respCount r).toNat = 0 ∨ (respCount r).toNat % 2 = 1 ∨
      Config.maxLevels < (respCount r).toNat) := by
    have : Config.maxLevels = 20 := rfl
    omega
  simp only [consumeResponse, hs, statusOfCode_statusCode, if_neg hlegal, hsteps]

/-- A word that says `OK` is no failed response (R103). -/
theorem not_failedWord_of_ok {r : RespWord} (hs : respStatus r = 0b00#2) : ¬ FailedWord r := by
  rintro (rfl | rfl) <;> exact absurd hs (by decide)

/-- Every successful response is read: each slot as its step, with the level the slot's code names. -/
theorem OkWord.consumed {r : RespWord} (h : OkWord r) :
    ∃ steps, consumeResponse r =
        .ok (.encoded steps ((List.range ((respCount r).toNat / 2)).map (respBit r))) ∧
      steps.length = (respCount r).toNat ∧
      ∀ (k : Nat) (x : LevelStep), steps[k]? = some x →
        x.bit = k / 2 ∧ x.half = k % 2 ∧ levelCode x.level = respLevel r k := by
  obtain ⟨hs, hmin, hmax, heven, hlevels, -, -⟩ := h
  obtain ⟨steps, hsteps⟩ :=
    exists_mapM_levelStep (n := (respCount r).toNat) fun k hk => hlevels k (by omega)
  obtain ⟨hlen, hread⟩ := steps_of_mapM_levelStep hsteps
  exact ⟨steps, consumeResponse_of_ok hs (by omega) heven hmax hsteps, hlen,
    fun k x hx => levelStep_eq_some (hread k x hx)⟩

/-! The host's reading of `RESP` (R27). -/

theorem readResponse_of_not_done {s : State} (h : s.done = 0#1) :
    readResponse s = .error .noResponse := if_pos h

theorem readResponse_of_done {s : State} (h : s.done = 1#1) :
    readResponse s = consumeResponse s.resp := if_neg (by simp [h])

/-- Once `DONE = 1`, an `OK` status stands only on a successful response. -/
theorem Inv.okWord {s : State} (h : Inv s) (hd : s.done = 1#1) (hs : respStatus s.resp = 0b00#2) :
    OkWord s.resp := by
  obtain ⟨hlegal, -⟩ := h
  have hresp : OkWord s.resp ∨ FailedWord s.resp := by simpa [RespLegal, hd] using hlegal
  exact hresp.resolve_right (not_failedWord_of_ok hs)

/-- Settles O56: `DONE` decides whether there is a response to read, `STATUS` how it is read; the invariant
is used for `OK` alone, where it makes `RESP` a word that `OkWord.consumed` reads. -/
theorem consumerReadsEveryResponse : Obligations.ConsumerReadsEveryResponse := by
  intro s hinv
  refine ⟨readResponse_of_not_done, fun hd => ?_⟩
  rw [readResponse_of_done hd]
  exact ⟨fun hs => (hinv.okWord hd hs).consumed, consumeResponse_of_invalidInput,
    consumeResponse_of_unknownScheme⟩

end Sys2Proof.Machine
end

section
/-! PROOFS. The state and who writes it (10_state.md R15 to R33): what a legal request is to the machine, what one
completed step can do, the registers a run reads and leaves, the invariant, and a standalone block driven by the
host. -/

namespace Sys2Proof.Machine

open Sys2Proof.Stated

/-! The statements' words and the model's. -/

@[simp] theorem level_eq_respLevel (r : RespWord) (k : Nat) : level r k = respLevel r k := rfl

theorem bitCode_eq_code (b : Bit) : bitCode b = code b := by
  unfold bitCode bitLevel code
  split <;> rfl

theorem reqString_eq_requestFields (req : ReqWord) : reqString req = requestFields req := rfl

/-- A slot reads a non-zero code exactly where the term has that character (log 9). -/
theorem charAt_eq_iff (str : BitString) (t : Nat) {c : Byte} (hc : c ≠ 0x00#8) :
    charAt str t = c ↔ str.chars[t]? = some c := by
  rw [charAt, List.getD_eq_getElem?_getD]
  cases str.chars[t]? <;> simp [hc.symm]

theorem charsOK_iff_legalString (str : BitString) : charsOK str = true ↔ LegalString str := by
  simp only [charsOK_iff, LegalString, charAt_eq_iff _ _ (show 0x30#8 ≠ 0x00#8 by decide),
    charAt_eq_iff _ _ (show 0x31#8 ≠ 0x00#8 by decide)]

theorem len_pos_of_legal {str : BitString} (h : LegalString str) : 0 < str.len.toNat := h.1

theorem len_le_ten_of_legal {str : BitString} (h : LegalString str) : str.len.toNat ≤ 10 := h.2.1

/-- The input bit of a legal string is the low bit of its character (R51, R52). -/
theorem inputBit_eq_bit {str : BitString} (h : LegalString str) {t : Nat} (ht : t < str.len.toNat) :
    inputBit str t = bit str t := by
  obtain ⟨-, -, hchars⟩ := h
  rcases hchars t ht with h | h <;>
    simp [inputBit, bit, h, (charAt_eq_iff str t (by decide)).mpr h]

/-! The ENCODE operations (R64). -/

theorem exec_encodeOf (e : Scheme) (str : BitString) (s : State) :
    exec (encodeOf e str) s = .next (encodeTransaction (some e) str s) := by
  cases e <;> rfl

theorem exec_encodeOf_of_legal (e : Scheme) {str : BitString} (h : LegalString str) (s : State) :
    exec (encodeOf e str) s = .next (completeEncode e str s) := by
  rw [exec_encodeOf, encodeTransaction_some str s e ((charsOK_iff_legalString str).mpr h)]

/-- An ENCODE is one transaction, the same from every state. -/
theorem exec_of_isEncode {i : Instr} {str : BitString} (h : IsEncode i str) :
    ∃ scheme, ∀ s, exec i s = .next (encodeTransaction scheme str s) := by
  rcases h with ⟨e, rfl⟩ | rfl | rfl
  · exact ⟨some e, exec_encodeOf e str⟩
  · exact ⟨none, fun _ => rfl⟩
  · exact ⟨none, fun _ => rfl⟩

/-- The encoder that a scheme code selects (R49). -/
def schemeOfCode (c : BitVec 3) : Option Scheme :=
  match c.toNat with
  | 0 => some .nrzL
  | 1 => some .nrzI
  | 2 => some .bipolarAMI
  | 3 => some .pseudoternary
  | 4 => some .manchester
  | 5 => some .differentialManchester
  | _ => none

theorem toNat_le_of_schemeOfCode {c : BitVec 3} {e : Scheme} (h : schemeOfCode c = some e) :
    c.toNat ≤ 5 := by
  revert c
  cases e <;> decide

/-- A request word runs the transaction of its scheme field on its operand fields. -/
theorem exec_request (req : ReqWord) (s : State) :
    exec (decode (.request req)) s =
      .next (encodeTransaction (schemeOfCode (reqScheme req)) (reqString req) s) := by
  simp only [decode, decodeRequest, schemeOfCode]
  split <;> simp only [*] <;> rfl

section
variable (scheme : Option Scheme) (str : BitString) (s : State)

@[simp] theorem encodeTransaction_standalone :
    (encodeTransaction scheme str s).standalone = s.standalone := by
  unfold encodeTransaction; split <;> rfl

@[simp] theorem encodeTransaction_ports : (encodeTransaction scheme str s).ports = s.ports := by
  unfold encodeTransaction; split <;> rfl

@[simp] theorem encodeTransaction_done : (encodeTransaction scheme str s).done = 1#1 := by
  unfold encodeTransaction; split <;> rfl

/-- The dispatcher's encoder registers are written by a success only (R106). -/
theorem encodeTransaction_instances_ne
    (h : (encodeTransaction scheme str s).instances ≠ s.instances) :
    charsOK str = true ∧ ∃ e, scheme = some e := by
  rcases encodeTransaction_cases str s scheme with ⟨-, ht⟩ | ⟨-, -, ht⟩ | ⟨hc, e, he, -⟩
  · exact absurd (by rw [ht]; rfl) h
  · exact absurd (by rw [ht]; rfl) h
  · exact ⟨hc, e, he⟩

end

/-! One completed step. -/

/-- What a completed step has done: nothing but to the host's lines, an ENCODE transaction, a STEP of a block, or
RESET. -/
theorem step_next_cases {s t : State} (h : step s = .next t) :
    (∃ rest w, t = (s.setHost rest).setReqLines w) ∨
    (∃ rest, s.host = .encode :: rest ∧ t = encodeTransaction (schemeOfCode (reqScheme s.reqLines))
      (reqString s.reqLines) (s.setHost rest)) ∨
    (∃ e x rest, s.host = .step e x :: rest ∧
      t = stepStandalone e (pairFirst x) (pairBit x) (s.setHost rest)) ∨
    (∃ rest, (s.host = .reset :: rest ∨ s.host = .resetDuringEncode :: rest) ∧
      t = resetRegisters (s.setHost rest)) := by
  rcases step_cases s with ⟨-, hs⟩ | ⟨w, rest, -, hs⟩ | ⟨rest, hh, hs⟩ | ⟨e, x, rest, hh, hs⟩ |
    ⟨rest, hh, hs⟩ | ⟨rest, -, hs⟩
  · cases hs.symm.trans h
    exact .inl ⟨s.host, s.reqLines, rfl⟩
  · cases hs.symm.trans h
    exact .inl ⟨rest, w, rfl⟩
  · rw [exec_request] at hs
    cases hs.symm.trans h
    exact .inr (.inl ⟨rest, hh, rfl⟩)
  · rw [exec_decodeStep] at hs
    cases hs.symm.trans h
    exact .inr (.inr (.inl ⟨e, x, rest, hh, rfl⟩))
  · cases hs.symm.trans h
    exact .inr (.inr (.inr ⟨rest, hh, rfl⟩))
  · cases hs.symm.trans h

/-! The invariant (R27, R47, R55 to R58). -/

theorem respLegal_of_not_done {s : State} (hd : s.done = 0#1) (h : s.resp = 0#57) : RespLegal s := by
  rw [RespLegal, if_pos hd]
  exact h

theorem respLegal_of_done {s : State} (hd : s.done = 1#1) (h : OkWord s.resp ∨ FailedWord s.resp) :
    RespLegal s := by
  rw [RespLegal, if_neg (by simp [hd])]
  exact h

/-- Every slot of a successful response is an output of a step or the `00` beyond the run (R73). -/
theorem levelsProduced_completeEncode (e : Scheme) (str : BitString) (s : State)
    (h10 : str.len.toNat ≤ 10) : LevelsProduced (completeEncode e str s).resp := by
  intro k hk
  rcases Nat.lt_or_ge k (2 * str.len.toNat) with hlt | hge
  · have ht : k / 2 < str.len.toNat := by omega
    obtain ⟨heven, hodd⟩ := completeEncode_levels str s e ht (by omega)
    obtain ⟨h0, h1⟩ := encoderStep_produces e (firstAt 1#1 (k / 2))
      (runEncoder e 1#1 ((inputBits str).take (k / 2)) s.instances).1 (inputBit str (k / 2))
    rcases Nat.mod_two_eq_zero_or_one k with hm | hm
    · rw [show k = 2 * (k / 2) by omega, heven]
      exact h0
    · rw [show k = 2 * (k / 2) + 1 by omega, hodd]
      exact h1
  · rw [completeEncode_levels_beyond str s e hge hk]
    decide

/-- A request that passed the checks gets a successful response (R56 to R58). -/
theorem okWord_completeEncode (e : Scheme) {str : BitString} (s : State) (h : charsOK str = true) :
    OkWord (completeEncode e str s).resp := by
  obtain ⟨hmin, hmax, -⟩ := (charsOK_iff str).mp h
  have hcount : (respCount (completeEncode e str s).resp).toNat = 2 * str.len.toNat :=
    toNat_respCount_okResponse _ _ _
  unfold OkWord
  rw [hcount]
  refine ⟨respStatus_okResponse _ _ _, by omega, by omega, by omega,
    levelsProduced_completeEncode e str s hmax,
    fun k hk hge => completeEncode_levels_beyond str s e hge hk, fun t ht hge => ?_⟩
  rw [completeEncode_bits str s e ht, if_neg (by omega)]

/-- Every ENCODE leaves a response that is produced (R55, R103). -/
theorem respLegal_encodeTransaction (scheme : Option Scheme) (str : BitString) (s : State) :
    RespLegal (encodeTransaction scheme str s) := by
  refine respLegal_of_done (encodeTransaction_done scheme str s) ?_
  rcases encodeTransaction_cases str s scheme with ⟨-, h⟩ | ⟨-, -, h⟩ | ⟨hc, e, -, h⟩
  · exact .inr (.inl (congrArg State.resp h))
  · exact .inr (.inr (congrArg State.resp h))
  · rw [h]
    exact .inl (okWord_completeEncode e s hc)

/-- A block's STEP shows producible levels on that block and leaves the other blocks' outputs (R47, R59). -/
theorem portsLegal_stepStandalone {s : State} (h : PortsLegal s) (e : Scheme) (first b : Bit) :
    PortsLegal (stepStandalone e first b s) := by
  intro block
  rw [readOutputs, stepStandalone_ports, OutputPorts.get_set]
  split
  · exact encoderStep_produces e first s.standalone b
  · exact h block

/-- Settles O54: the invariant speaks of `RESP`, `DONE` and the outputs; an ENCODE writes a producible response, a
STEP producible outputs, RESET the reset values, and whatever a step does not write it keeps. -/
theorem everyStepKeepsTheInvariant : Obligations.EveryStepKeepsTheInvariant := by
  rintro s t ⟨hresp, hports⟩ hstep
  rcases step_next_cases hstep with ⟨rest, w, rfl⟩ | ⟨rest, -, rfl⟩ | ⟨e, x, rest, -, rfl⟩ | ⟨rest, -, rfl⟩
  · exact ⟨hresp, hports⟩
  · refine ⟨respLegal_encodeTransaction _ _ _, fun block => ?_⟩
    rw [readOutputs, encodeTransaction_ports]
    exact hports block
  · exact ⟨hresp, portsLegal_stepStandalone (s := s.setHost rest) hports _ _ _⟩
  · exact ⟨respLegal_of_not_done rfl rfl, hports⟩

/-- Settles O55: `DONE` and `RESP` are 0 and every output is `00`. -/
theorem invariantHoldsAtReset : Obligations.InvariantHoldsAtReset :=
  ⟨respLegal_of_not_done rfl rfl, fun block => by cases block <;> decide⟩

/-! Reset and the issued operations. -/

/-- Settles O8: the record `State.reset` read field by field. -/
theorem resetStateHoldsTheResetValues : Obligations.ResetStateHoldsTheResetValues := by
  unfold Obligations.ResetStateHoldsTheResetValues
  decide

/-- Settles O9: RESET is `resetRegisters`, which writes out the same record. -/
theorem resetLoadsEveryRegister : Obligations.ResetLoadsEveryRegister := fun _ => rfl

/-- Settles O50: each host action that issues an operation is taken by `nextAction` as that operation's word. -/
theorem stepRunsTheDecodedOperation : Obligations.StepRunsTheDecodedOperation :=
  fun _ _ => ⟨rfl, fun _ _ => rfl, rfl, rfl⟩

/-! Who writes what (R21 to R28). -/

/-- Settles O44: of all that a step can do, only RESET writes 0 to `DONE`. -/
theorem doneIsClearedByResetOnly : Obligations.DoneIsClearedByResetOnly := by
  intro s t hstep hbefore hafter
  have hne : t.done ≠ s.done := by simp [hbefore, hafter]
  rcases step_next_cases hstep with ⟨rest, w, rfl⟩ | ⟨rest, -, rfl⟩ | ⟨e, x, rest, -, rfl⟩ | ⟨rest, hh, -⟩
  · exact absurd rfl hne
  · simp at hafter
  · exact absurd rfl hne
  · exact ⟨rest, hh⟩

/-- Settles O45: a step that is neither ENCODE nor RESET leaves `RESP`. -/
theorem respIsWrittenByEncodeAndResetOnly : Obligations.RespIsWrittenByEncodeAndResetOnly := by
  intro s t hstep hne
  rcases step_next_cases hstep with ⟨rest, w, rfl⟩ | ⟨rest, hh, -⟩ | ⟨e, x, rest, -, rfl⟩ | ⟨rest, hh, -⟩
  · exact absurd rfl hne
  · exact ⟨rest, .inl hh⟩
  · exact absurd rfl hne
  · exact ⟨rest, .inr hh⟩

/-- Settles O46: a step that is neither ENCODE nor RESET leaves the dispatcher's encoder registers, and so does an
ENCODE that fails. -/
theorem instanceRegistersAreWrittenByTheDispatcherOnly :
    Obligations.InstanceRegistersAreWrittenByTheDispatcherOnly := by
  intro s t hstep hne
  rcases step_next_cases hstep with ⟨rest, w, rfl⟩ | ⟨rest, hh, rfl⟩ | ⟨e, x, rest, -, rfl⟩ | ⟨rest, hh, -⟩
  · exact absurd rfl hne
  · obtain ⟨hc, e, he⟩ := encodeTransaction_instances_ne _ _ (s.setHost rest) hne
    rw [charsOK_iff_legalString, reqString_eq_requestFields] at hc
    exact ⟨rest, .inl ⟨hh, hc, toNat_le_of_schemeOfCode he⟩⟩
  · exact absurd rfl hne
  · exact ⟨rest, .inr hh⟩

/-! The registers of a run (R28 to R31). -/

/-- Two sets of registers agree but for the register of one block. -/
def EncoderRegs.AgreeBut (e : Scheme) (r q : EncoderRegs) : Prop :=
  (e ≠ .nrzI → r.nrziLast = q.nrziLast) ∧ (e ≠ .bipolarAMI → r.amiPol = q.amiPol) ∧
  (e ≠ .pseudoternary → r.ptPol = q.ptPol) ∧ (e ≠ .differentialManchester → r.dmLast = q.dmLast)

theorem runEncoder_agreeBut (e : Scheme) (f : Bit) (bs : List Bit) (r : EncoderRegs) :
    (runEncoder e f bs r).1.AgreeBut e r :=
  ⟨runEncoder_nrziLast e f bs r, runEncoder_amiPol e f bs r, runEncoder_ptPol e f bs r,
    runEncoder_dmLast e f bs r⟩

/-- A step is a run of one bit. -/
theorem encoderStep_agreeBut (e : Scheme) (f b : Bit) (r : EncoderRegs) :
    (encoderStep e f b r).1.AgreeBut e r := runEncoder_agreeBut e f [b] r

/-- Settles O31: a failure writes no register, a success those its run may write. -/
theorem onlyTheSelectedInstanceIsStepped : Obligations.OnlyTheSelectedInstanceIsStepped := by
  intro s str e
  refine ⟨_, exec_encodeOf e str s, ?_⟩
  show EncoderRegs.AgreeBut e _ s.instances
  rcases encodeTransaction_cases str s (some e) with ⟨-, h⟩ | ⟨-, h, -⟩ | ⟨-, e', he, h⟩
  · rw [h]
    exact ⟨fun _ => rfl, fun _ => rfl, fun _ => rfl, fun _ => rfl⟩
  · cases h
  · cases he
    rw [h]
    exact runEncoder_agreeBut e 1#1 (inputBits str) s.instances

/-- Settles O47: without RESET a step writes the standalone registers only as a STEP, which leaves every register
but its own block's. -/
theorem standaloneRegistersAreWrittenByTheirBlockOnly :
    Obligations.StandaloneRegistersAreWrittenByTheirBlockOnly := by
  intro s t hstep
  rcases step_next_cases hstep with ⟨rest, w, rfl⟩ | ⟨rest, -, rfl⟩ | ⟨e, x, rest, hh, rfl⟩ | ⟨rest, hh, -⟩
  · exact .inr (by simp)
  · exact .inr (by simp)
  · obtain ⟨hnrzi, hami, hpt, hdm⟩ := encoderStep_agreeBut e (pairFirst x) (pairBit x) s.standalone
    have hblock {b : Scheme} (h : ¬ e ≠ b) : ∃ x rest, s.host = .step b x :: rest :=
      ⟨x, rest, not_not.mp h ▸ hh⟩
    exact .inr ⟨fun h => hblock (mt hnrzi h), fun h => hblock (mt hami h),
      fun h => hblock (mt hpt h), fun h => hblock (mt hdm h)⟩
  · exact .inl ⟨rest, hh⟩

/-- The register of one block at its reset value. -/
def EncoderRegs.restart (e : Scheme) (r : EncoderRegs) : EncoderRegs :=
  match e with
  | .nrzL => r
  | .nrzI => { r with nrziLast := 0#1 }
  | .bipolarAMI => { r with amiPol := 0#1 }
  | .pseudoternary => { r with ptPol := 0#1 }
  | .manchester => r
  | .differentialManchester => { r with dmLast := 1#1 }

/-- A first step is a general step from the reset value of the register (R29, R89, R98). -/
theorem encoderStep_first (e : Scheme) (b : Bit) (r : EncoderRegs) :
    encoderStep e 1#1 b r = encoderStep e 0#1 b (r.restart e) := by
  cases e with
  | nrzL | bipolarAMI | pseudoternary | manchester => rfl
  | nrzI => simp [encoderStep, nrzIStep, EncoderRegs.restart]
  | differentialManchester => simp [encoderStep, dmStep, dmLevels, EncoderRegs.restart]

theorem restart_encoderStep (e : Scheme) (f b : Bit) (r : EncoderRegs) :
    (encoderStep e f b r).1.restart e = r.restart e := by
  cases e <;> rfl

theorem restart_runEncoder (e : Scheme) (f : Bit) (bs : List Bit) (r : EncoderRegs) :
    (runEncoder e f bs r).1.restart e = r.restart e := by
  induction bs generalizing f r with
  | nil => rfl
  | cons b bs ih => rw [runEncoder_cons, ih, restart_encoderStep]

/-- A run that starts with `first = 1` is a run that starts from the reset value (R29). -/
theorem runEncoder_first (e : Scheme) {bs : List Bit} (hbs : bs ≠ []) (r : EncoderRegs) :
    runEncoder e 1#1 bs r = runEncoder e 0#1 bs (r.restart e) := by
  cases bs with
  | nil => exact absurd rfl hbs
  | cons b bs => rw [runEncoder_cons, runEncoder_cons, encoderStep_first]

/-- The same run again, from the registers it has left. -/
theorem runEncoder_again (e : Scheme) (bs : List Bit) (r : EncoderRegs) :
    runEncoder e 1#1 bs (runEncoder e 1#1 bs r).1 = runEncoder e 1#1 bs r := by
  cases bs with
  | nil => rfl
  | cons b bs =>
    rw [runEncoder_first e (List.cons_ne_nil b bs), restart_runEncoder,
      ← runEncoder_first e (List.cons_ne_nil b bs)]

theorem completeEncode_again (e : Scheme) (str : BitString) (s : State) :
    completeEncode e str (completeEncode e str s) = completeEncode e str s := by
  have hrun := runEncoder_again e (inputBits str) s.instances
  simp only [completeEncode, State.answer_instances, State.setInstances_instances, hrun]
  rfl

theorem encodeTransaction_again (scheme : Option Scheme) (str : BitString) (s : State) :
    encodeTransaction scheme str (encodeTransaction scheme str s) = encodeTransaction scheme str s := by
  rcases encodeTransaction_cases str s scheme with ⟨hc, h⟩ | ⟨hc, rfl, h⟩ | ⟨hc, e, rfl, h⟩
  · rw [h, encodeTransaction_of_not_charsOK _ _ _ hc]
    rfl
  · rw [h, encodeTransaction_none _ _ hc]
    rfl
  · rw [h, encodeTransaction_some _ _ _ hc, completeEncode_again]

/-- Settles O42: a failure writes the same answer again, a success runs again from the registers it has left, which
`first = 1` ignores. -/
theorem repeatedEncodeChangesNothing : Obligations.RepeatedEncodeChangesNothing := by
  intro s str i hi
  obtain ⟨scheme, hexec⟩ := exec_of_isEncode hi
  exact ⟨_, hexec s, by rw [hexec, encodeTransaction_again]⟩

/-- The registers before bit `t` of a run that starts with `first = 1`: the register of the run's block is at its
reset value before bit 0, so every bit is a step with `first = 0`. -/
def runRegs (e : Scheme) (str : BitString) (r : EncoderRegs) (t : Nat) : EncoderRegs :=
  (runEncoder e 0#1 ((inputBits str).take t) (r.restart e)).1

/-- What the step for bit `t` of such a run gives. -/
def runStep (e : Scheme) (str : BitString) (r : EncoderRegs) (t : Nat) : EncoderRegs × SubLevels :=
  encoderStep e 0#1 (inputBit str t) (runRegs e str r t)

@[simp] theorem runRegs_zero (e : Scheme) (str : BitString) (r : EncoderRegs) :
    runRegs e str r 0 = r.restart e := rfl

theorem runRegs_succ (e : Scheme) (str : BitString) (r : EncoderRegs) {t : Nat}
    (ht : t < str.len.toNat) : runRegs e str r (t + 1) = (runStep e str r t).1 := by
  rw [runRegs, runEncoder_take_succ e 0#1 (inputBits str) _ (by simpa using ht)]
  simp [runStep, runRegs, firstAt, inputBits]

/-- A step of a run that starts with `first = 1` is `runStep`, on bit 0 and later. -/
theorem encoderStep_firstAt_run (e : Scheme) (str : BitString) (r : EncoderRegs) {t : Nat}
    (ht : t < str.len.toNat) :
    encoderStep e (firstAt 1#1 t) (inputBit str t)
      (runEncoder e 1#1 ((inputBits str).take t) r).1 = runStep e str r t := by
  cases t with
  | zero => exact encoderStep_first e (inputBit str 0) r
  | succ t =>
    have hne : (inputBits str).take (t + 1) ≠ [] :=
      List.ne_nil_of_length_pos (by rw [List.length_take, length_inputBits]; omega)
    rw [runEncoder_first e hne]
    rfl

/-- The slots of a successful response, bit by bit. -/
theorem completeEncode_level_runStep (e : Scheme) {str : BitString} (h : LegalString str) (s : State)
    {t : Nat} (ht : t < str.len.toNat) :
    respLevel (completeEncode e str s).resp (2 * t) = (runStep e str s.instances t).2.l0 ∧
      respLevel (completeEncode e str s).resp (2 * t + 1) = (runStep e str s.instances t).2.l1 := by
  rw [← encoderStep_firstAt_run e str s.instances ht]
  exact completeEncode_levels str s e ht (ht.trans_le (len_le_ten_of_legal h))

/-- The registers a successful ENCODE leaves are those after the last bit. -/
theorem completeEncode_instances_runRegs (e : Scheme) {str : BitString} (h : LegalString str) (s : State) :
    (completeEncode e str s).instances = runRegs e str s.instances str.len.toNat := by
  have hne : inputBits str ≠ [] :=
    List.ne_nil_of_length_pos (by rw [length_inputBits]; exact len_pos_of_legal h)
  rw [completeEncode_instances, runEncoder_first e hne, runRegs, ← length_inputBits, List.take_length]

/-! What a run leaves in the selected register (R31). -/

/-- The last slot in use and the registers left, both from the step for the last bit. -/
theorem completeEncode_last (e : Scheme) {str : BitString} (h : LegalString str) (s : State) :
    ∃ b r, level (completeEncode e str s).resp (2 * str.len.toNat - 1) = (encoderStep e 0#1 b r).2.l1 ∧
      (completeEncode e str s).instances = (encoderStep e 0#1 b r).1 := by
  obtain ⟨m, hm⟩ : ∃ m, str.len.toNat = m + 1 := ⟨_, (Nat.sub_add_cancel (len_pos_of_legal h)).symm⟩
  have hlt : m < str.len.toNat := by omega
  refine ⟨inputBit str m, runRegs e str s.instances m, ?_, ?_⟩
  · rw [show 2 * str.len.toNat - 1 = 2 * m + 1 by omega]
    exact (completeEncode_level_runStep e h s hlt).2
  · rw [completeEncode_instances_runRegs e h, hm]
    exact runRegs_succ e str s.instances hlt

/-- One step of a scheme that alternates polarity: level `0` and the polarity kept, or the new polarity's level. -/
def PolarityStep (old new : Bit) (o : SubLevels) : Prop :=
  (o = bothHalves 0b00#2 ∧ new = old) ∨ o = bothHalves (if new = 1#1 then 0b01#2 else 0b11#2)

theorem amiStep_polarityStep : ∀ b p : Bit, PolarityStep p (amiStep 0#1 b p).1 (amiStep 0#1 b p).2 := by
  unfold PolarityStep
  decide

theorem ptStep_polarityStep : ∀ b p : Bit, PolarityStep p (ptStep 0#1 b p).1 (ptStep 0#1 b p).2 := by
  unfold PolarityStep
  decide

/-- `pol` is the polarity of the last non-zero level of a response, -1 if there is none (R31). -/
def LastPolarity (r : RespWord) (pol : Bit) : Prop :=
  (∀ k < 20, level r k ≠ 0b00#2 → (∀ j < 20, k < j → level r j = 0b00#2) →
    level r k = if pol = 1#1 then 0b01#2 else 0b11#2) ∧
  ((∀ k < 20, level r k = 0b00#2) → pol = 0#1)

section
variable {p : Nat → Bit} {o : Nat → SubLevels}

/-- Over bits of level `0` the polarity stays. -/
theorem polarity_eq_of_zeros {u n : Nat} (hun : u ≤ n)
    (hstep : ∀ t < n, PolarityStep (p t) (p (t + 1)) (o t))
    (hzero : ∀ t < n, u ≤ t → (o t).l0 = 0b00#2) : p n = p u := by
  induction n, hun using Nat.le_induction with
  | base => rfl
  | succ n hun ih =>
    rw [← ih (fun t ht => hstep t (by omega)) (fun t ht => hzero t (by omega))]
    rcases hstep n n.lt_succ_self with ⟨-, hkept⟩ | hlevel
    · exact hkept
    · have h0 := hzero n n.lt_succ_self hun
      rw [hlevel] at h0
      unfold bothHalves at h0
      split at h0 <;> cases h0

theorem lastPolarity_of_polaritySteps {r : RespWord} {n : Nat} (hn : n ≤ 10) (h0 : p 0 = 0#1)
    (hstep : ∀ t < n, PolarityStep (p t) (p (t + 1)) (o t))
    (hlevel : ∀ t < n, respLevel r (2 * t) = (o t).l0 ∧ respLevel r (2 * t + 1) = (o t).l1)
    (hbeyond : ∀ k < 20, 2 * n ≤ k → respLevel r k = 0b00#2) : LastPolarity r (p n) := by
  constructor
  · intro k hk hne hlast
    simp only [level_eq_respLevel] at hne hlast ⊢
    have hu : k / 2 < n := by
      by_contra hge
      exact hne (hbeyond k hk (by omega))
    have hafter : p n = p (k / 2 + 1) := by
      refine polarity_eq_of_zeros hu hstep fun t ht hut => ?_
      rw [← (hlevel t ht).1]
      exact hlast (2 * t) (by omega) (by omega)
    have hslot {c : LevelCode} (hc : o (k / 2) = bothHalves c) : respLevel r k = c := by
      obtain ⟨heven, hodd⟩ := hlevel _ hu
      rw [hc] at heven hodd
      rcases Nat.mod_two_eq_zero_or_one k with hm | hm
      · rwa [show 2 * (k / 2) = k by omega] at heven
      · rwa [show 2 * (k / 2) + 1 = k by omega] at hodd
    rcases hstep _ hu with ⟨hz, -⟩ | hnz
    · exact absurd (hslot hz) hne
    · rw [hafter]
      exact hslot hnz
  · intro hall
    rw [← h0]
    exact polarity_eq_of_zeros n.zero_le hstep fun t ht _ => by
      rw [← (hlevel t ht).1]
      exact hall (2 * t) (by omega)

end

/-- A successful ENCODE of a scheme whose register is a polarity, `-1` after reset, leaves that of the last
non-zero level. -/
theorem lastPolarity_completeEncode {e : Scheme} (pol : EncoderRegs → Bit)
    (hrestart : ∀ r : EncoderRegs, pol (r.restart e) = 0#1)
    (hstep : ∀ (b : Bit) (r : EncoderRegs),
      PolarityStep (pol r) (pol (encoderStep e 0#1 b r).1) (encoderStep e 0#1 b r).2)
    {str : BitString} (h : LegalString str) (s : State) :
    LastPolarity (completeEncode e str s).resp (pol (completeEncode e str s).instances) := by
  rw [completeEncode_instances_runRegs e h]
  refine lastPolarity_of_polaritySteps (p := fun t => pol (runRegs e str s.instances t))
    (o := fun t => (runStep e str s.instances t).2) (len_le_ten_of_legal h) (hrestart _) (fun t ht => ?_)
    (fun t ht => completeEncode_level_runStep e h s ht)
    (fun k hk hge => completeEncode_levels_beyond str s e hge hk)
  simp only [runRegs_succ e str s.instances ht]
  exact hstep _ _

/-- Settles O32: the last slot and the register come from one step of NRZ-I or Differential Manchester; AMI and
Pseudoternary alternate polarity from -1. -/
theorem selectedRegisterHoldsTheLastLevel : Obligations.SelectedRegisterHoldsTheLastLevel := by
  intro s str h last lastPolarity
  refine ⟨⟨_, exec_encodeOf_of_legal .nrzI h s, ?_⟩,
    ⟨_, exec_encodeOf_of_legal .differentialManchester h s, ?_⟩,
    ⟨_, exec_encodeOf_of_legal .bipolarAMI h s, ?_⟩, ⟨_, exec_encodeOf_of_legal .pseudoternary h s, ?_⟩⟩
  · obtain ⟨b, r, hlevel, hregs⟩ := completeEncode_last .nrzI h s
    rw [hlevel, hregs]
    exact bitCode_eq_code _
  · obtain ⟨b, r, hlevel, hregs⟩ := completeEncode_last .differentialManchester h s
    rw [hlevel, hregs]
    exact bitCode_eq_code _
  · exact lastPolarity_completeEncode (e := .bipolarAMI) (·.amiPol) (fun _ => rfl)
      (fun b r => amiStep_polarityStep b r.amiPol) h s
  · exact lastPolarity_completeEncode (e := .pseudoternary) (·.ptPol) (fun _ => rfl)
      (fun b r => ptStep_polarityStep b r.ptPol) h s

/-! A standalone block driven by the host (R59, R124). -/

/-- Several steps and then one more. -/
theorem run_succ_of_run {k : Nat} {s u v : State} (hrun : Host.Core.run core k s = .next u)
    (hstep : step u = .next v) : Host.Core.run core (k + 1) s = .next v := by
  induction k generalizing s with
  | zero =>
    cases hrun
    exact run_succ_of_step hstep 0
  | succ k ih =>
    cases hs : step s with
    | next s' =>
      rw [run_succ_of_step hs] at hrun ⊢
      exact ih hrun
    | fault r => cases r
    | refused r =>
      have hs' : core.step s = .refused r := hs
      simp [Host.Core.run, hs'] at hrun

theorem pairFirst_append : ∀ first b : Bit, pairFirst (first ++ b) = first := by decide

theorem pairBit_append : ∀ first b : Bit, pairBit (first ++ b) = b := by decide

theorem driveBlock_drop (e : Scheme) (str : BitString) {t : Nat} (ht : t < str.len.toNat) :
    (driveBlock e str).drop t =
      .step e (firstAt 1#1 t ++ bit str t) :: (driveBlock e str).drop (t + 1) := by
  rw [List.drop_eq_getElem_cons (by simpa [driveBlock] using ht)]
  simp [driveBlock, firstAt]

/-- The step for bit `t` of a driven block. -/
theorem step_driven {e : Scheme} {str : BitString} (h : LegalString str) {t : Nat}
    (ht : t < str.len.toNat) {u : State} (hu : u.host = (driveBlock e str).drop t) :
    step u = .next (stepStandalone e (firstAt 1#1 t) (inputBit str t)
      (u.setHost ((driveBlock e str).drop (t + 1)))) := by
  rw [driveBlock_drop e str ht] at hu
  simp only [step, nextAction, hu]
  rw [exec_decodeStep, pairFirst_append, pairBit_append, inputBit_eq_bit h ht]

/-- After `t` steps a driven block has made the run over the first `t` bits. -/
theorem run_driven (e : Scheme) {str : BitString} (h : LegalString str) (s : State) {t : Nat}
    (ht : t ≤ str.len.toNat) :
    ∃ u : State, Host.Core.run core t { s with host := driveBlock e str } = .next u ∧
      u.host = (driveBlock e str).drop t ∧
      u.standalone = (runEncoder e 1#1 ((inputBits str).take t) s.standalone).1 := by
  induction t with
  | zero => exact ⟨_, rfl, rfl, rfl⟩
  | succ t ih =>
    obtain ⟨u, hrun, hhost, hregs⟩ := ih (by omega)
    refine ⟨_, run_succ_of_run hrun (step_driven h ht hhost), rfl, ?_⟩
    rw [stepStandalone_standalone, State.setHost_standalone, hregs,
      runEncoder_take_succ e 1#1 (inputBits str) _ (by simpa using ht)]
    simp [inputBits]

/-- The outputs for bit `t` do not depend on the registers before a run that starts with `first = 1` (R29). -/
theorem firstAt_outputs_indep (e : Scheme) (str : BitString) (r q : EncoderRegs) {t : Nat}
    (ht : t < str.len.toNat) :
    (encoderStep e (firstAt 1#1 t) (inputBit str t)
        (runEncoder e 1#1 ((inputBits str).take t) r).1).2 =
      (encoderStep e (firstAt 1#1 t) (inputBit str t)
        (runEncoder e 1#1 ((inputBits str).take t) q).1).2 := by
  have hlen : t < (inputBits str).length := by simpa using ht
  have hr := runEncoder_getD e 1#1 (inputBits str) r hlen ⟨0#2, 0#2⟩
  have hq := runEncoder_getD e 1#1 (inputBits str) q hlen ⟨0#2, 0#2⟩
  rw [inputBits_getD str ht] at hr hq
  rw [← hr, ← hq, runEncoder_outputs_indep e (inputBits str) r q]

/-- Settles O59: block and dispatcher make the same run, from registers that `first = 1` ignores. -/
theorem standaloneBlockAgreesWithTheDispatcher : Obligations.StandaloneBlockAgreesWithTheDispatcher := by
  intro s s' e str t h ht
  obtain ⟨u, hrun, hhost, hregs⟩ := run_driven e h s' ht.le
  refine ⟨_, _, ⟨_, exec_encodeOf_of_legal e h s, rfl⟩, run_succ_of_run hrun (step_driven h ht hhost), ?_⟩
  obtain ⟨heven, hodd⟩ := completeEncode_levels str s e ht (ht.trans_le (len_le_ten_of_legal h))
  rw [readOutputs, stepStandalone_ports, OutputPorts.get_set_self, State.setHost_standalone, hregs,
    level_eq_respLevel, level_eq_respLevel, heven, hodd]
  exact firstAt_outputs_indep e str s'.standalone s.instances ht

end Sys2Proof.Machine
end

section
/-! PROOFS. The order of operations and the REQ lines (20_memory.md R39, R41, R42; 70_reset_and_hazards.md R115, R122):
the levels of a prefix of a run, what an ENCODE transaction and a STEP of a block leave to each other, and a step that
presents a word. -/

namespace Sys2Proof.Machine

open Sys2Proof.Stated

/-! The levels of the first bits (R42, R68). -/

/-- A property of both slots of each of `n` bits is one of their `2 * n` slots (R57). -/
theorem forall_slots_of_forall_bits {P : Nat → Prop} {n : Nat} (h : ∀ t < n, P (2 * t) ∧ P (2 * t + 1)) :
    ∀ k < 2 * n, P k := by
  intro k hk
  obtain ⟨t, rfl | rfl⟩ := k.even_or_odd'
  · exact (h t (by omega)).1
  · exact (h t (by omega)).2

/-- Legal strings that agree on `m` bits give the encoder the same first `m` bits. -/
theorem take_inputBits_congr {a b : BitString} (ha : LegalString a) (hb : LegalString b) {m : Nat}
    (hma : m ≤ a.len.toNat) (hmb : m ≤ b.len.toNat) (hbits : ∀ t < m, bit a t = bit b t) :
    (inputBits a).take m = (inputBits b).take m := by
  rw [inputBits, inputBits, ← List.map_take, ← List.map_take, List.take_range, List.take_range,
    min_eq_left hma, min_eq_left hmb]
  refine List.map_congr_left fun t ht => ?_
  have htm : t < m := List.mem_range.mp ht
  rw [inputBit_eq_bit ha (htm.trans_le hma), inputBit_eq_bit hb (htm.trans_le hmb), hbits t htm]

/-- The two slots of bit `t` depend on the bits up to `t` alone: not on the bits after it, nor on the state. -/
theorem completeEncode_levels_congr (e : Scheme) {a b : BitString} (ha : LegalString a) (hb : LegalString b)
    (s s' : State) {t : Nat} (hta : t < a.len.toNat) (htb : t < b.len.toNat)
    (hbits : ∀ u < t + 1, bit a u = bit b u) :
    respLevel (completeEncode e a s).resp (2 * t) = respLevel (completeEncode e b s').resp (2 * t) ∧
      respLevel (completeEncode e a s).resp (2 * t + 1) = respLevel (completeEncode e b s').resp (2 * t + 1) := by
  obtain ⟨ha0, ha1⟩ := completeEncode_levels a s e hta (hta.trans_le (len_le_ten_of_legal ha))
  obtain ⟨hb0, hb1⟩ := completeEncode_levels b s' e htb (htb.trans_le (len_le_ten_of_legal hb))
  have hbefore : (inputBits a).take t = (inputBits b).take t :=
    take_inputBits_congr ha hb hta.le htb.le fun u hu => hbits u (by omega)
  have hnow : inputBit a t = inputBit b t := by
    rw [inputBit_eq_bit ha hta, inputBit_eq_bit hb htb, hbits t t.lt_succ_self]
  rw [ha0, ha1, hb0, hb1, hbefore, hnow, firstAt_outputs_indep e b s.instances s'.instances htb]
  exact ⟨rfl, rfl⟩

/-- Settles O43: both strings are legal, so both requests complete, and the slots agree bit by bit. -/
theorem levelsDependOnTheBitsSoFar : Obligations.LevelsDependOnTheBitsSoFar := by
  intro s s' a b e m ha hb hma hmb hbits
  refine ⟨_, _, ⟨_, exec_encodeOf_of_legal e ha s, rfl⟩, ⟨_, exec_encodeOf_of_legal e hb s', rfl⟩, ?_⟩
  refine forall_slots_of_forall_bits fun t ht => ?_
  exact completeEncode_levels_congr e ha hb s s' (ht.trans_le hma) (ht.trans_le hmb)
    fun u hu => hbits u (by omega)

/-! Operations of different instances (R41, R115). -/

theorem exec_stepOf (e : Scheme) (first b : Bit) (s : State) :
    exec (stepOf e first b) s = .next (stepStandalone e first b s) := by
  cases e <;> rfl

/-- The dispatcher and a standalone block share no state. -/
theorem encodeTransaction_stepStandalone (scheme : Option Scheme) (str : BitString) (e : Scheme)
    (first b : Bit) (s : State) :
    encodeTransaction scheme str (stepStandalone e first b s) =
      stepStandalone e first b (encodeTransaction scheme str s) := by
  unfold encodeTransaction
  split <;> rfl

/-- A step of another block leaves the outputs of a step as they are, and the two write the registers in either order:
only two blocks with the same register could disturb one another. -/
theorem encoderStep_encoderStep_of_ne {e e' : Scheme} (h : e ≠ e') (f b f' b' : Bit) (r : EncoderRegs) :
    encoderStep e' f' b' (encoderStep e f b r).1 =
      ((encoderStep e f b (encoderStep e' f' b' r).1).1, (encoderStep e' f' b' r).2) := by
  cases e <;> cases e'
  case nrzI.nrzI | bipolarAMI.bipolarAMI | pseudoternary.pseudoternary |
      differentialManchester.differentialManchester => exact absurd rfl h
  all_goals rfl

theorem stepStandalone_comm {e e' : Scheme} (h : e ≠ e') (f b f' b' : Bit) (s : State) :
    stepStandalone e' f' b' (stepStandalone e f b s) = stepStandalone e f b (stepStandalone e' f' b' s) := by
  have hregs := encoderStep_encoderStep_of_ne h f b f' b' s.standalone
  have hregs' := encoderStep_encoderStep_of_ne h.symm f' b' f b s.standalone
  have hports := OutputPorts.set_comm s.ports h (encoderStep e f b s.standalone).2
    (encoderStep e' f' b' s.standalone).2
  simp only [stepStandalone, State.setPorts_standalone, State.setPorts_ports, State.setStandalone_standalone]
  rw [hregs, hregs', hports]
  rfl

/-- Settles O53: an ENCODE and a STEP write disjoint parts of the state, and two blocks each their own register and
outputs. -/
theorem operationsOfDifferentInstancesCommute : Obligations.OperationsOfDifferentInstancesCommute := by
  intro s first b first' b' e e' i str hi
  obtain ⟨scheme, hexec⟩ := exec_of_isEncode hi
  refine ⟨⟨_, _, _, hexec s, exec_stepOf e first b _, exec_stepOf e first b s, ?_⟩,
    fun h => ⟨_, _, _, exec_stepOf e first b s, exec_stepOf e' first' b' _, exec_stepOf e' first' b' s, ?_⟩⟩
  · rw [hexec, encodeTransaction_stepStandalone]
  · rw [exec_stepOf, stepStandalone_comm h]

/-! The `REQ` lines (R39, R122). -/

/-- What the host does later is nothing to an ENCODE transaction. -/
theorem encodeTransaction_setHost (scheme : Option Scheme) (str : BitString) (s : State) (h : List HostAction) :
    encodeTransaction scheme str (s.setHost h) = (encodeTransaction scheme str s).setHost h := by
  unfold encodeTransaction
  split <;> rfl

/-- An ENCODE step: the transaction of the word on the `REQ` lines, whatever the host does after it. -/
theorem step_encode (s : State) (rest : List HostAction) :
    step (s.setHost (.encode :: rest)) = .next ((encodeTransaction (schemeOfCode (reqScheme s.reqLines))
      (reqString s.reqLines) s).setHost rest) := by
  rw [← encodeTransaction_setHost]
  exact exec_request s.reqLines (s.setHost rest)

theorem step_presentReq (s : State) (w : ReqWord) (rest : List HostAction) :
    step (s.setHost (.presentReq w :: rest)) = .next ((s.setHost rest).setReqLines w) := rfl

/-- Settles O52: a step that presents a word writes the `REQ` lines, and an ENCODE before it has read them already. -/
theorem presentingRequestHasNoEffect : Obligations.PresentingRequestHasNoEffect := fun s w rest =>
  ⟨step_presentReq s w rest, _, step_encode s (.presentReq w :: rest), step_presentReq _ w rest,
    step_encode s rest⟩

end Sys2Proof.Machine
end

section
/-! PROOFS. The encoding (30_encoding.md R48, R49, R59 to R63): the scheme field selects the operation, the fields of a
word are the whole word, and the statements on decoder, encoder, text forms and bits at a port. -/

namespace Sys2Proof.Machine

open Sys2Proof.Stated

/-! Which operation a word selects (R49, R59, R63). -/

/-- The eight scheme codes: one per scheme and the two reserved ones (R49). -/
theorem schemeCode_cases (c : BitVec 3) : (∃ e, c = schemeCode e) ∨ c = 0b110#3 ∨ c = 0b111#3 := by
  have hall : ∀ c : BitVec 3, c = 0b000#3 ∨ c = 0b001#3 ∨ c = 0b010#3 ∨ c = 0b011#3 ∨ c = 0b100#3 ∨
      c = 0b101#3 ∨ c = 0b110#3 ∨ c = 0b111#3 := by decide
  rcases hall c with h | h | h | h | h | h | h | h
  · exact .inl ⟨.nrzL, h⟩
  · exact .inl ⟨.nrzI, h⟩
  · exact .inl ⟨.bipolarAMI, h⟩
  · exact .inl ⟨.pseudoternary, h⟩
  · exact .inl ⟨.manchester, h⟩
  · exact .inl ⟨.differentialManchester, h⟩
  · exact .inr (.inl h)
  · exact .inr (.inr h)

theorem toNat_schemeCode (e : Scheme) : (schemeCode e).toNat = schemeNumber e := by
  cases e <;> rfl

section
variable {req : ReqWord}

theorem decodeRequest_of_schemeCode {e : Scheme} (h : reqScheme req = schemeCode e) :
    decodeRequest req = encodeOf e (reqString req) := by
  simp only [decodeRequest, h]
  cases e <;> rfl

theorem decodeRequest_of_reserved110 (h : reqScheme req = 0b110#3) :
    decodeRequest req = .encodeReserved110 (reqString req) := by
  simp only [decodeRequest, h]
  rfl

theorem decodeRequest_of_reserved111 (h : reqScheme req = 0b111#3) :
    decodeRequest req = .encodeReserved111 (reqString req) := by
  simp only [decodeRequest, h]
  rfl

end

theorem decode_step_append (e : Scheme) (first b : Bit) :
    decode (.step e (first ++ b)) = stepOf e first b := by
  cases e <;> simp only [decode, decodeStep, pairFirst_append, pairBit_append] <;> rfl

theorem encode_encodeOf (e : Scheme) (str : BitString) :
    encode (encodeOf e str) = .request (encodeRequest (schemeCode e) str) := by
  cases e <;> rfl

theorem encode_stepOf (e : Scheme) (first b : Bit) : encode (stepOf e first b) = .step e (first ++ b) := by
  cases e <;> rfl

theorem wellFormed_encodeOf (e : Scheme) (str : BitString) : (encodeOf e str).WellFormed = str.WellFormed := by
  cases e <;> rfl

theorem wellFormed_stepOf (e : Scheme) (first b : Bit) : (stepOf e first b).WellFormed = true := by
  cases e <;> rfl

/-! The fields of a word and the word of some fields (R48, R59). -/

theorem BitString.wellFormed_iff (str : BitString) : str.WellFormed = true ↔ str.chars.length = 10 := beq_iff_eq

theorem wellFormed_reqString (req : ReqWord) : (reqString req).WellFormed = true := rfl

/-- The operand fields of an encoded request: none is dropped or moved. -/
theorem reqString_encodeRequest (c : BitVec 3) {str : BitString} (h : str.WellFormed = true) :
    reqString (encodeRequest c str) = str := by
  have hlen : str.chars.length = 10 := (BitString.wellFormed_iff str).mp h
  have hchars : (List.range 10).map (reqChar (encodeRequest c str)) = str.chars := by
    refine List.ext_getElem (by simp [hlen]) fun k hk hk' => ?_
    rw [List.getElem_map, List.getElem_range, reqChar_encodeRequest c str (hlen ▸ hk'),
      List.getD_eq_getElem _ _ hk']
  simp only [reqString, reqLen_encodeRequest, hchars]

/-- A request word is its fields: every bit of it has one. -/
theorem encodeRequest_fields (req : ReqWord) : encodeRequest (reqScheme req) (reqString req) = req := by
  apply BitVec.eq_of_getLsbD_eq
  intro i hi
  rw [getLsbD_encodeRequest]
  split_ifs with h3 h7
  · simp [reqScheme, h3]
  · simp [reqString, reqLen, show i - 3 < 4 by omega, show 3 + (i - 3) = i by omega]
  · have hslot : (i - 7) / 8 < 10 := by omega
    have hbit : 7 + 8 * ((i - 7) / 8) + (i - 7) % 8 = i := by omega
    rw [getLsbD_packChars]
    simp [reqString, reqChar, hslot, hbit, show i - 7 < 80 by omega, Nat.mod_lt (i - 7) (show 0 < 8 by decide)]

theorem pairFirst_append_pairBit : ∀ x : BitVec 2, pairFirst x ++ pairBit x = x := by decide

/-! The two round trips (R63). -/

theorem decode_encode_encodeOf (e : Scheme) {str : BitString} (h : str.WellFormed = true) :
    decode (encode (encodeOf e str)) = encodeOf e str := by
  rw [encode_encodeOf, decode, decodeRequest_of_schemeCode (reqScheme_encodeRequest _ _),
    reqString_encodeRequest _ h]

theorem decode_encode_stepOf (e : Scheme) (first b : Bit) :
    decode (encode (stepOf e first b)) = stepOf e first b := by
  rw [encode_stepOf, decode_step_append]

/-- Settles O1: the scheme field of an encoded request reads as its code, the operand fields as the operands; an input
pair reads as its two bits. -/
theorem decodeOfEncodeIsTheOperation : Obligations.DecodeOfEncodeIsTheOperation := by
  intro i h
  cases i with
  | encodeNrzL str => exact decode_encode_encodeOf .nrzL h
  | encodeNrzI str => exact decode_encode_encodeOf .nrzI h
  | encodeAmi str => exact decode_encode_encodeOf .bipolarAMI h
  | encodePt str => exact decode_encode_encodeOf .pseudoternary h
  | encodeMan str => exact decode_encode_encodeOf .manchester h
  | encodeDm str => exact decode_encode_encodeOf .differentialManchester h
  | encodeReserved110 str =>
    rw [encode, decode, decodeRequest_of_reserved110 (reqScheme_encodeRequest _ _), reqString_encodeRequest _ h]
  | encodeReserved111 str =>
    rw [encode, decode, decodeRequest_of_reserved111 (reqScheme_encodeRequest _ _), reqString_encodeRequest _ h]
  | stepNrzL f b => exact decode_encode_stepOf .nrzL f b
  | stepNrzI f b => exact decode_encode_stepOf .nrzI f b
  | stepAmi f b => exact decode_encode_stepOf .bipolarAMI f b
  | stepPt f b => exact decode_encode_stepOf .pseudoternary f b
  | stepMan f b => exact decode_encode_stepOf .manchester f b
  | stepDm f b => exact decode_encode_stepOf .differentialManchester f b
  | reset => rfl

/-- A decoded request is well formed, and its word has the same fields. -/
theorem encode_decodeRequest (req : ReqWord) :
    (decodeRequest req).WellFormed = true ∧
      encode (decodeRequest req) = .request (encodeRequest (reqScheme req) (reqString req)) := by
  rcases schemeCode_cases (reqScheme req) with ⟨e, h⟩ | h | h
  · rw [decodeRequest_of_schemeCode h, wellFormed_encodeOf, encode_encodeOf, h]
    exact ⟨wellFormed_reqString req, rfl⟩
  · rw [decodeRequest_of_reserved110 h, h]
    exact ⟨wellFormed_reqString req, rfl⟩
  · rw [decodeRequest_of_reserved111 h, h]
    exact ⟨wellFormed_reqString req, rfl⟩

/-- Settles O2: a word is its fields, and the decoded operation holds them all. -/
theorem encodeOfDecodeIsTheWord : Obligations.EncodeOfDecodeIsTheWord := by
  intro w
  cases w with
  | request req =>
    obtain ⟨hwf, henc⟩ := encode_decodeRequest req
    exact ⟨hwf, henc.trans (congrArg Issue.request (encodeRequest_fields req))⟩
  | step e x =>
    rw [← pairFirst_append_pairBit x, decode_step_append]
    exact ⟨wellFormed_stepOf _ _ _, encode_stepOf _ _ _⟩
  | reset => exact ⟨rfl, rfl⟩

/-- Settles O3: the scheme field's number is that of one code; the operand fields are those of `reqString`. -/
theorem operationIsSelectedBySchemeFieldBlockOrResetInput :
    Obligations.OperationIsSelectedBySchemeFieldBlockOrResetInput :=
  ⟨fun _ e h => decodeRequest_of_schemeCode (BitVec.eq_of_toNat_eq (h.trans (toNat_schemeCode e).symm)),
    fun _ h => decodeRequest_of_reserved110 (BitVec.eq_of_toNat_eq h),
    fun _ h => decodeRequest_of_reserved111 (BitVec.eq_of_toNat_eq h), decode_step_append, rfl⟩

/-- Settles O4: the decoder run on the five words. -/
theorem specExampleWordsDecode : Obligations.SpecExampleWordsDecode := by
  unfold Obligations.SpecExampleWordsDecode
  decide

/-! Bits at a port (R59, R61, R63; log 8). -/

/-- The word that bits of value `w` are at a port. -/
def portIssue (port : Port) (w : Nat) : Issue :=
  match port with
  | .request => .request (BitVec.ofNat 87 w)
  | .encoder block => .step block (BitVec.ofNat 2 w)
  | .resetInput => .reset

theorem decodeBits_eq_ok_iff (port : Port) (nbits w : Nat) (i : Instr) :
    decodeBits port nbits w = .ok i ↔
      nbits = portWidth port ∧ w < 2 ^ nbits ∧ i = decode (portIssue port w) := by
  unfold decodeBits readIssue
  split_ifs with hn hw
  · exact ⟨nofun, fun ⟨h, _⟩ => absurd h hn⟩
  · exact ⟨nofun, fun ⟨_, h, _⟩ => absurd h (Nat.not_lt.mpr hw)⟩
  · have hok (j : Issue) : (Except.ok j : Except DecodeReject Issue).map decode = .ok i ↔ i = decode j := by
      rw [Except.map, Except.ok.injEq, eq_comm]
    rw [not_not] at hn
    rw [Nat.not_le] at hw
    cases port <;> exact ⟨fun h => ⟨hn, hw, (hok _).mp h⟩, fun ⟨_, _, h⟩ => (hok _).mpr h⟩

/-- Settles O5: the two checks of `readIssue` are the width and the bits above it; a word of the width is itself. -/
theorem onlyWordsOfThePortsWidthDecode : Obligations.OnlyWordsOfThePortsWidthDecode := by
  intro port nbits w
  refine ⟨?_, fun req => ?_, fun e x => ?_⟩
  · have hiff : (∃ i, decodeBits port nbits w = .ok i) ↔ nbits = portWidth port ∧ w < 2 ^ nbits := by
      simp only [decodeBits_eq_ok_iff, exists_and_left, exists_eq, and_true]
    cases port <;> exact hiff
  · rw [decodeBits_eq_ok_iff]
    exact ⟨rfl, req.isLt, by rw [portIssue, BitVec.ofNat_toNat, BitVec.setWidth_eq]⟩
  · rw [decodeBits_eq_ok_iff]
    exact ⟨rfl, x.isLt, by rw [portIssue, BitVec.ofNat_toNat, BitVec.setWidth_eq]⟩

/-- The port that a table word is given to. -/
def tablePort (nbits : Nat) : Port := if nbits = 0 then .resetInput else .request

theorem decodeTableWord_eq_some_iff (nbits w : Nat) (i : Instr) :
    decodeTableWord nbits w = some i ↔
      decodeBits (tablePort nbits) (portWidth (tablePort nbits)) (w % 2 ^ nbits) = .ok i := by
  unfold decodeTableWord tablePort
  dsimp only
  generalize decodeBits _ _ _ = d
  cases d <;> simp

/-- The operation of a table word: RESET for a row of no bit, else the request with those bits. -/
theorem eq_decode_of_decodeTableWord {nbits w : Nat} {i : Instr} (h : decodeTableWord nbits w = some i) :
    i = decode (if nbits = 0 then .reset else .request (BitVec.ofNat 87 (w % 2 ^ nbits))) := by
  rw [decodeTableWord_eq_some_iff, decodeBits_eq_ok_iff] at h
  obtain ⟨-, -, rfl⟩ := h
  rw [tablePort]
  split <;> rfl

theorem exec_completes (i : Instr) (s : State) : ∃ t, exec i s = .next t := by
  rcases exec_cases i s with ⟨_, _, h⟩ | ⟨_, _, _, h⟩ | h
  · exact ⟨_, h⟩
  · exact ⟨_, h⟩
  · exact ⟨_, h⟩

/-- Settles O51: `withFetchWord` places for issue the word that `decodeTableWord` decodes. -/
theorem fetchWordIsRunNext : Obligations.FetchWordIsRunNext := by
  intro s nbits w i h
  rw [eq_decode_of_decodeTableWord h, State.withFetchWord]
  split
  · obtain ⟨t, ht⟩ := exec_completes (decode .reset) s
    exact ⟨t, ht, ht⟩
  · obtain ⟨t, ht⟩ := exec_completes (decode (.request (BitVec.ofNat 87 (w % 2 ^ nbits))))
      (s.setReqLines (BitVec.ofNat 87 (w % 2 ^ nbits)))
    exact ⟨t, ht, ht⟩

/-! The text forms (R62). -/

theorem asmChar_of_printable {c : Char} (h : 0x20 ≤ c.toNat ∧ c.toNat ≤ 0x7e) :
    asmChar c = some (BitVec.ofNat 8 c.toNat) := if_pos h

/-- A printable text of 1 to 10 characters assembles to its fields' word under the scheme's code. -/
theorem asmEncode_of_printable (e : Scheme) {text : List Char} (hmin : 1 ≤ text.length) (hmax : text.length ≤ 10)
    (h : ∀ c ∈ text, 0x20 ≤ c.toNat ∧ c.toNat ≤ 0x7e) :
    asmEncode e text = some (encodeRequest (schemeCode e) (textFields text)) := by
  have hcodes : text.mapM asmChar = some (text.map fun c => BitVec.ofNat 8 c.toNat) := by
    rw [mapM_eq_some_iff, List.map_map]
    exact List.map_congr_left fun c hc => asmChar_of_printable (h c hc)
  simp only [asmEncode, hcodes, List.length_map]
  rw [if_pos ⟨hmin, hmax⟩]
  simp only [asmSlots, List.length_map, textFields]

/-- A text assembles to as many codes as it has characters, so only to 1 to 10 of them. -/
theorem asmEncode_of_length (e : Scheme) {text : List Char} (h : text.length = 0 ∨ 10 < text.length) :
    asmEncode e text = none := by
  unfold asmEncode
  split
  next => rfl
  next codes hcodes =>
    have hlen : codes.length = text.length := by
      simpa using (congrArg List.length ((mapM_eq_some_iff _ _ _).mp hcodes)).symm
    rw [if_neg]
    simp only [hlen, Config.minLen, Config.maxLen]
    omega

theorem wellFormed_textFields {text : List Char} (h : text.length ≤ 10) : (textFields text).WellFormed = true := by
  rw [BitString.wellFormed_iff]
  simp [textFields, h]

/-- Settles O6: the assembled word is the encoded one, which decodes to its operation. -/
theorem textFormsAssembleToTheirOperations : Obligations.TextFormsAssembleToTheirOperations := by
  refine ⟨fun e text hmin hmax h => ?_, fun e text h => ?_, fun _ => rfl, fun e first b => ?_, rfl⟩
  · refine ⟨_, congrArg (Option.map Issue.request) (asmEncode_of_printable e hmin hmax h), ?_⟩
    rw [← encode_encodeOf, decode_encode_encodeOf e (wellFormed_textFields hmax)]
  · exact congrArg (Option.map Issue.request) (asmEncode_of_length e h)
  · exact ⟨_, rfl, decode_step_append e first b⟩

end Sys2Proof.Machine
end

section
/-! PROOFS. What is read of a word: the slots of a request that an ENCODE reads (30_encoding.md R53), and the response
words that a consumer refuses (R47, R55, R56). -/

namespace Sys2Proof.Machine

open Sys2Proof.Stated

/-! The slots that are read (R53). -/

section
variable {a b : BitString}

theorem charAt_congr {t : Nat} (h : a.chars[t]? = b.chars[t]?) : charAt a t = charAt b t := by
  rw [charAt, charAt, List.getD_eq_getElem?_getD, List.getD_eq_getElem?_getD, h]

/-- The checks read the length and, where it is legal, the slots below it. -/
theorem charsOK_congr (hlen : a.len = b.len)
    (hchars : 1 ≤ a.len.toNat → a.len.toNat ≤ 10 → ∀ t < a.len.toNat, charAt a t = charAt b t) :
    charsOK a = charsOK b := by
  rw [Bool.eq_iff_iff, charsOK_iff, charsOK_iff, ← hlen]
  refine and_congr_right fun hmin => and_congr_right fun hmax => forall₂_congr fun t ht => ?_
  rw [hchars hmin hmax t ht]

/-- The input bits are those of the slots below the length. -/
theorem inputBits_congr (hlen : a.len = b.len) (hchars : ∀ t < a.len.toNat, charAt a t = charAt b t) :
    inputBits a = inputBits b := by
  rw [inputBits, inputBits, ← hlen]
  refine List.map_congr_left fun t ht => ?_
  rw [inputBit, inputBit, hchars t (List.mem_range.mp ht)]

theorem completeEncode_congr (e : Scheme) (hlen : a.len = b.len) (hbits : inputBits a = inputBits b) (s : State) :
    completeEncode e a s = completeEncode e b s := by
  rw [completeEncode, completeEncode, hlen, hbits]

/-- A transaction reads the length and, where it is legal, the slots below it. -/
theorem encodeTransaction_congr (scheme : Option Scheme) (hlen : a.len = b.len)
    (hchars : 1 ≤ a.len.toNat → a.len.toNat ≤ 10 → ∀ t < a.len.toNat, charAt a t = charAt b t) (s : State) :
    encodeTransaction scheme a s = encodeTransaction scheme b s := by
  have hcheck : charsOK a = charsOK b := charsOK_congr hlen hchars
  rcases encodeTransaction_cases a s scheme with ⟨hc, h⟩ | ⟨hc, rfl, h⟩ | ⟨hc, e, rfl, h⟩
  · rw [h, encodeTransaction_of_not_charsOK b s scheme (hcheck ▸ hc)]
  · rw [h, encodeTransaction_none b s (hcheck ▸ hc)]
  · obtain ⟨hmin, hmax, -⟩ := (charsOK_iff a).mp hc
    rw [h, encodeTransaction_some b s e (hcheck ▸ hc),
      completeEncode_congr e hlen (inputBits_congr hlen (hchars hmin hmax)) s]

end

/-- Settles O29: each ENCODE is one transaction, and a transaction reads nothing beyond the length. -/
theorem slotsBeyondLengthAreIgnored : Obligations.SlotsBeyondLengthAreIgnored := by
  intro s a b e hlen hslots
  have hsame (scheme : Option Scheme) : encodeTransaction scheme a s = encodeTransaction scheme b s :=
    encodeTransaction_congr scheme hlen
      (fun hmin hmax t ht => charAt_congr (hslots ⟨hmin, hmax⟩ t ht)) s
  refine ⟨?_, congrArg Host.Outcome.next (hsame none), congrArg Host.Outcome.next (hsame none)⟩
  rw [exec_encodeOf, exec_encodeOf, hsame]

/-! The words a consumer refuses (R47, R55, R56). -/

section
variable {r : RespWord}

theorem consumeResponse_of_reservedStatus (h : respStatus r = 0b11#2) :
    consumeResponse r = .error .reservedStatus := by
  have hnone : statusOfCode 0b11#2 = none := by decide
  simp only [consumeResponse, h, hnone]

theorem consumeResponse_of_illegalCount (hs : respStatus r = statusCode .ok)
    (hn : (respCount r).toNat = 0 ∨ (respCount r).toNat % 2 = 1 ∨ Config.maxLevels < (respCount r).toNat) :
    consumeResponse r = .error .illegalCount := by
  simp only [consumeResponse, hs, statusOfCode_statusCode, if_pos hn]

/-- A legal count whose slots are not all levels. -/
theorem consumeResponse_of_reservedLevel (hs : respStatus r = statusCode .ok)
    (hn : ¬ ((respCount r).toNat = 0 ∨ (respCount r).toNat % 2 = 1 ∨ Config.maxLevels < (respCount r).toNat))
    (hl : (List.range (respCount r).toNat).mapM (levelStep r) = none) :
    consumeResponse r = .error .reservedLevel := by
  simp only [consumeResponse, hs, statusOfCode_statusCode, if_neg hn, hl]

end

/-- Settles O57: one clause per check of the consumer; the code `10` is the one that reads as no level. -/
theorem consumerRefusesWhatIsNeverProduced : Obligations.ConsumerRefusesWhatIsNeverProduced := by
  intro r
  refine ⟨consumeResponse_of_reservedStatus, fun hs hn => consumeResponse_of_illegalCount hs (.inr hn),
    fun hs heven hmax => ?_⟩
  rintro ⟨k, hk, hlevel⟩
  refine consumeResponse_of_reservedLevel hs ?_ ?_
  · have : Config.maxLevels = 20 := rfl
    omega
  · rw [mapM_eq_none_iff]
    exact ⟨k, List.mem_range.mpr hk, (levelStep_eq_none_iff r k).mpr hlevel⟩

end Sys2Proof.Machine
end

section
/-! PROOFS. The response of every request word (30_encoding.md R48 to R58, 40_line_code_dispatcher.md R64 to R72): each
scheme's run in closed form, then the request's three outcomes. -/

namespace Sys2Proof.Machine

open Sys2Proof.Stated

/-! The closed form of each scheme's run (R77 to R82, R92, R94, R101). -/

/-- The number of `1` bits counts on by one at a `1`, so its parity is the exclusive or of the bits. -/
theorem parity_ones_succ (str : BitString) (t : Nat) :
    BitVec.ofNat 1 (ones str (t + 1)) = BitVec.ofNat 1 (ones str t) ^^^ bit str t := by
  have hbit : ∀ p b : Bit, p + BitVec.ofNat 1 (if b = 1#1 then 1 else 0) = p ^^^ b := by decide
  rw [ones, BitVec.ofNat_add, hbit]

theorem parity_zeros_succ (str : BitString) (t : Nat) :
    BitVec.ofNat 1 (zeros str (t + 1)) = BitVec.ofNat 1 (zeros str t) ^^^ ~~~ bit str t := by
  have hbit : ∀ p b : Bit, p + BitVec.ofNat 1 (if b = 0#1 then 1 else 0) = p ^^^ ~~~ b := by decide
  rw [zeros, BitVec.ofNat_add, hbit]

theorem mod_two_eq_zero_iff_parity (n : Nat) : n % 2 = 0 ↔ BitVec.ofNat 1 n = 0#1 := by
  rw [← BitVec.toNat_inj, BitVec.toNat_ofNat, BitVec.toNat_ofNat]

/-- NRZ-I's level before bit `t`: 0 before the first bit (R29). -/
def nrziBefore (str : BitString) : Nat → Bit
  | 0 => 0#1
  | t + 1 => nrziLevel str t

theorem nrziLevel_eq (str : BitString) (t : Nat) : nrziLevel str t = nrziBefore str t ^^^ bit str t := by
  cases t with
  | zero => exact (BitVec.zero_xor).symm
  | succ t => rfl

/-- The registers before bit `t` of a run that starts with `first = 1`, in closed form: of `r`, the run writes its
block's register alone. -/
def closedRegs (e : Scheme) (str : BitString) (r : EncoderRegs) (t : Nat) : EncoderRegs :=
  match e with
  | .nrzL => r
  | .nrzI => { r with nrziLast := nrziBefore str t }
  | .bipolarAMI => { r with amiPol := BitVec.ofNat 1 (ones str t) }
  | .pseudoternary => { r with ptPol := BitVec.ofNat 1 (zeros str t) }
  | .manchester => r
  | .differentialManchester => { r with dmLast := ~~~ BitVec.ofNat 1 (zeros str t) }

theorem closedRegs_zero (e : Scheme) (str : BitString) (r : EncoderRegs) :
    closedRegs e str r 0 = r.restart e := by
  cases e with
  | nrzL | nrzI | bipolarAMI | pseudoternary | manchester => rfl
  | differentialManchester => simp [closedRegs, EncoderRegs.restart, zeros]

/-- The sub-levels of a bit, as a block shows them. -/
def schemeSubLevels (e : Scheme) (str : BitString) (t : Nat) : SubLevels :=
  ⟨(schemeLevels e str t).1, (schemeLevels e str t).2⟩

section
variable (str : BitString) (t : Nat)

theorem nrzIStep_closed : nrzIStep 0#1 (bit str t) (nrziBefore str t) =
    (nrziBefore str (t + 1), bothHalves (code (nrziLevel str t))) := by
  rw [nrziBefore, nrziLevel_eq, ← bitCode_eq_code]
  rfl

theorem amiStep_closed : amiStep 0#1 (bit str t) (BitVec.ofNat 1 (ones str t)) =
    (BitVec.ofNat 1 (ones str (t + 1)), bothHalves (amiLevel str t)) := by
  have hstep : ∀ b p : Bit, amiStep 0#1 b p =
      (p ^^^ b, bothHalves (if b = 0#1 then 0b00#2 else if p = 0#1 then 0b01#2 else 0b11#2)) := by decide
  rw [hstep, parity_ones_succ, amiLevel]
  simp only [mod_two_eq_zero_iff_parity]

theorem ptStep_closed : ptStep 0#1 (bit str t) (BitVec.ofNat 1 (zeros str t)) =
    (BitVec.ofNat 1 (zeros str (t + 1)), bothHalves (ptLevel str t)) := by
  have hstep : ∀ b p : Bit, ptStep 0#1 b p =
      (p ^^^ ~~~ b, bothHalves (if b = 1#1 then 0b00#2 else if p = 0#1 then 0b01#2 else 0b11#2)) := by decide
  rw [hstep, parity_zeros_succ, ptLevel]
  simp only [mod_two_eq_zero_iff_parity]

theorem manStep_closed : manStep 0#1 (bit str t) = ⟨(manLevels str t).1, (manLevels str t).2⟩ := by
  unfold manStep manLevels
  split <;> rfl

theorem dmStep_closed : dmStep 0#1 (bit str t) (~~~ BitVec.ofNat 1 (zeros str t)) =
    (~~~ BitVec.ofNat 1 (zeros str (t + 1)), ⟨code (dmParity str t), code (~~~ dmParity str t)⟩) := by
  have hstep : ∀ b p : Bit, dmStep 0#1 b (~~~ p) =
      (~~~ (p ^^^ ~~~ b), ⟨code (p ^^^ ~~~ b), code (~~~ (p ^^^ ~~~ b))⟩) := by decide
  rw [hstep, dmParity, parity_zeros_succ]

/-- The step for bit `t`, from the closed form to the closed form. -/
theorem encoderStep_closedRegs (e : Scheme) (r : EncoderRegs) :
    encoderStep e 0#1 (bit str t) (closedRegs e str r t) = (closedRegs e str r (t + 1), schemeSubLevels e str t) := by
  cases e with
  | nrzL => simp only [encoderStep, nrzLStep, bitCode_eq_code]; rfl
  | nrzI => simp only [encoderStep, closedRegs, nrzIStep_closed]; rfl
  | bipolarAMI => simp only [encoderStep, closedRegs, amiStep_closed]; rfl
  | pseudoternary => simp only [encoderStep, closedRegs, ptStep_closed]; rfl
  | manchester => simp only [encoderStep, manStep_closed]; rfl
  | differentialManchester => simp only [encoderStep, closedRegs, dmStep_closed]; rfl

end

section
variable (e : Scheme) {str : BitString} (h : LegalString str)
include h

theorem runRegs_eq_closedRegs (r : EncoderRegs) {t : Nat} (ht : t ≤ str.len.toNat) :
    runRegs e str r t = closedRegs e str r t := by
  induction t with
  | zero => exact (closedRegs_zero e str r).symm
  | succ t ih =>
    rw [runRegs_succ e str r ht, runStep, ih (by omega), inputBit_eq_bit h ht, encoderStep_closedRegs]

theorem runStep_outputs (r : EncoderRegs) {t : Nat} (ht : t < str.len.toNat) :
    (runStep e str r t).2 = schemeSubLevels e str t := by
  rw [runStep, runRegs_eq_closedRegs e h r ht.le, inputBit_eq_bit h ht, encoderStep_closedRegs]

/-- A successful ENCODE gives the complete encoding in the scheme's closed form (R57, R58, R69 to R71). -/
theorem encodes_completeEncode (s : State) :
    Encodes (completeEncode e str s).resp str (schemeLevels e str) := by
  refine ⟨respStatus_okResponse _ _ _, toNat_respCount_okResponse _ _ _, fun t ht => ?_,
    fun k hk hge => completeEncode_levels_beyond str s e hge hk, fun t ht => ?_⟩
  · have hslots := completeEncode_level_runStep e h s ht
    rw [runStep_outputs e h s.instances ht] at hslots
    exact hslots
  · rw [echo, ← respBit, completeEncode_bits str s e ht]
    exact if_ctx_congr Iff.rfl (inputBit_eq_bit h) fun _ => rfl

end

/-! Every request word, from its bits to the response's (R48 to R58, R64 to R72). -/

@[simp] theorem encodeTransaction_reqLines (scheme : Option Scheme) (str : BitString) (s : State) :
    (encodeTransaction scheme str s).reqLines = s.reqLines := by
  unfold encodeTransaction; split <;> rfl

@[simp] theorem encodeTransaction_host (scheme : Option Scheme) (str : BitString) (s : State) :
    (encodeTransaction scheme str s).host = s.host := by
  unfold encodeTransaction; split <;> rfl

theorem schemeOfCode_schemeCode (e : Scheme) : schemeOfCode (schemeCode e) = some e := by
  cases e <;> rfl

theorem schemeOfCode_of_schemeNumber {c : BitVec 3} {e : Scheme} (h : c.toNat = schemeNumber e) :
    schemeOfCode c = some e := by
  rw [BitVec.eq_of_toNat_eq (h.trans (toNat_schemeCode e).symm), schemeOfCode_schemeCode]

/-- The codes from 6 on are reserved (R49). -/
theorem schemeOfCode_of_six_le {c : BitVec 3} (h : 6 ≤ c.toNat) : schemeOfCode c = none := by
  cases hc : schemeOfCode c with
  | none => rfl
  | some e =>
    have := toNat_le_of_schemeOfCode hc
    omega

/-- Settles O58: an issued word runs the transaction of its scheme field on its fields, which fails by the string's
check, fails by the scheme's, or completes. -/
theorem requestWordGivesTheSpecifiedResponse : Obligations.RequestWordGivesTheSpecifiedResponse := by
  intro s req rest
  refine ⟨_, exec_request req { s with reqLines := req, host := rest }, encodeTransaction_done _ _ _,
    encodeTransaction_standalone _ _ _, encodeTransaction_ports _ _ _, encodeTransaction_reqLines _ _ _,
    encodeTransaction_host _ _ _, fun hill => ?_, fun hlegal hcode => ?_, fun e hlegal hcode => ?_⟩
  · rw [← charsOK_iff_legalString, Bool.not_eq_true, ← reqString_eq_requestFields] at hill
    rw [encodeTransaction_of_not_charsOK _ _ _ hill]
    exact ⟨rfl, rfl⟩
  · rw [← charsOK_iff_legalString, ← reqString_eq_requestFields] at hlegal
    rw [reqScheme, schemeOfCode_of_six_le hcode, encodeTransaction_none _ _ hlegal]
    exact ⟨rfl, rfl⟩
  · rw [reqString_eq_requestFields, reqScheme, schemeOfCode_of_schemeNumber hcode,
      encodeTransaction_some _ _ e ((charsOK_iff_legalString _).mpr hlegal)]
    exact encodes_completeEncode e hlegal _

end Sys2Proof.Machine
end

section
/-! PROOFS. The ENCODE operations of the dispatcher (40_line_code_dispatcher.md R64 to R82): what each does with a legal
and with an illegal string, which of the three outcomes a request has, and what no response depends on. -/

namespace Sys2Proof.Machine

open Sys2Proof.Stated

/-! One ENCODE, by its string (R64, R77 to R82). -/

/-- A success writes `RESP`, `DONE` and the registers of the run, which are in closed form after the last bit. -/
theorem completeEncode_eq (e : Scheme) {str : BitString} (h : LegalString str) (s : State) :
    completeEncode e str s = { s with
      resp := (completeEncode e str s).resp
      done := 1#1
      instances := closedRegs e str s.instances str.len.toNat } := by
  rw [← runRegs_eq_closedRegs e h s.instances le_rfl, ← completeEncode_instances_runRegs e h]
  rfl

theorem exec_encodeOf_encodes (e : Scheme) {str : BitString} (h : LegalString str) (s : State) :
    ∃ r, exec (encodeOf e str) s = .next { s with
        resp := r
        done := 1#1
        instances := closedRegs e str s.instances str.len.toNat } ∧
      Encodes r str (schemeLevels e str) := by
  refine ⟨(completeEncode e str s).resp, ?_, encodes_completeEncode e h s⟩
  rw [exec_encodeOf_of_legal e h, ← completeEncode_eq e h]

theorem exec_encodeOf_of_illegal (e : Scheme) {str : BitString} (h : ¬ LegalString str) (s : State) :
    exec (encodeOf e str) s = .next { s with resp := 1#57, done := 1#1 } := by
  rw [← charsOK_iff_legalString, Bool.not_eq_true] at h
  rw [exec_encodeOf, encodeTransaction_of_not_charsOK str s _ h]
  rfl

/-! The six schemes: `closedRegs` and `schemeLevels` at each of them. -/

/-- Settles O19: the run writes no register. -/
theorem encodeNrzLResult : Obligations.EncodeNrzLResult :=
  ⟨fun _ => decodeRequest_of_schemeCode (e := .nrzL), fun s _ h => exec_encodeOf_encodes .nrzL h s,
    fun s _ h => exec_encodeOf_of_illegal .nrzL h s⟩

/-- The level that NRZ-I leaves after the last bit. -/
theorem nrziBefore_len {str : BitString} (h : LegalString str) :
    nrziBefore str str.len.toNat = nrziLevel str (str.len.toNat - 1) := by
  obtain ⟨m, hm⟩ := Nat.exists_eq_add_one.mpr (len_pos_of_legal h)
  rw [hm]
  rfl

/-- Settles O20: the run leaves the last bit's level in `nrzi_last`. -/
theorem encodeNrzIResult : Obligations.EncodeNrzIResult := by
  refine ⟨fun _ => decodeRequest_of_schemeCode (e := .nrzI), fun s str h => ?_,
    fun s _ h => exec_encodeOf_of_illegal .nrzI h s⟩
  rw [← nrziBefore_len h]
  exact exec_encodeOf_encodes .nrzI h s

/-- Settles O21: the run leaves the parity of the `1`s in `ami_pol`. -/
theorem encodeAmiResult : Obligations.EncodeAmiResult :=
  ⟨fun _ => decodeRequest_of_schemeCode (e := .bipolarAMI), fun s _ h => exec_encodeOf_encodes .bipolarAMI h s,
    fun s _ h => exec_encodeOf_of_illegal .bipolarAMI h s⟩

/-- Settles O22: the run leaves the parity of the `0`s in `pt_pol`. -/
theorem encodePtResult : Obligations.EncodePtResult :=
  ⟨fun _ => decodeRequest_of_schemeCode (e := .pseudoternary),
    fun s _ h => exec_encodeOf_encodes .pseudoternary h s,
    fun s _ h => exec_encodeOf_of_illegal .pseudoternary h s⟩

/-- Settles O23: the run writes no register. -/
theorem encodeManResult : Obligations.EncodeManResult :=
  ⟨fun _ => decodeRequest_of_schemeCode (e := .manchester), fun s _ h => exec_encodeOf_encodes .manchester h s,
    fun s _ h => exec_encodeOf_of_illegal .manchester h s⟩

/-- The parity of the zeros up to the last bit is that of all of them. -/
theorem dmParity_last {str : BitString} (h : LegalString str) :
    dmParity str (str.len.toNat - 1) = BitVec.ofNat 1 (zeros str str.len.toNat) := by
  rw [dmParity, Nat.sub_add_cancel (len_pos_of_legal h)]

/-- Settles O24: the run leaves the last bit's second level, the inverted parity of the `0`s, in `dm_last`. -/
theorem encodeDmResult : Obligations.EncodeDmResult := by
  refine ⟨fun _ => decodeRequest_of_schemeCode (e := .differentialManchester), fun s str h => ?_,
    fun s _ h => exec_encodeOf_of_illegal .differentialManchester h s⟩
  rw [dmParity_last h]
  exact exec_encodeOf_encodes .differentialManchester h s

/-! The three outcomes (R66). -/

theorem encodeOf_ne_reserved (e : Scheme) (str : BitString) :
    ¬ (encodeOf e str = .encodeReserved110 str ∨ encodeOf e str = .encodeReserved111 str) := by
  cases e <;> rintro (h | h) <;> cases h

theorem exec_reserved_of_legal {i : Instr} {str : BitString}
    (hi : i = .encodeReserved110 str ∨ i = .encodeReserved111 str) (h : LegalString str) (s : State) :
    exec i s = .next (s.answer 2#57) := by
  rw [← encodeTransaction_none str s ((charsOK_iff_legalString str).mpr h)]
  rcases hi with rfl | rfl <;> rfl

/-- All an ENCODE can do: `InvalidInput` where the string is illegal, whatever the scheme code; of a legal string
`UnknownScheme` where the code is reserved, and the complete encoding where it is not. -/
theorem exec_isEncode_cases {i : Instr} {str : BitString} (hi : IsEncode i str) (s : State) :
    (¬ LegalString str ∧ exec i s = .next (s.answer 1#57)) ∨
    (LegalString str ∧ (i = .encodeReserved110 str ∨ i = .encodeReserved111 str) ∧
      exec i s = .next (s.answer 2#57)) ∨
    (LegalString str ∧ ∃ e, i = encodeOf e str ∧ exec i s = .next (completeEncode e str s)) := by
  by_cases h : LegalString str
  · rcases hi with ⟨e, rfl⟩ | hres
    · exact .inr (.inr ⟨h, e, rfl, exec_encodeOf_of_legal e h s⟩)
    · exact .inr (.inl ⟨h, hres, exec_reserved_of_legal hres h s⟩)
  · obtain ⟨scheme, hexec⟩ := exec_of_isEncode hi
    have hc : charsOK str = false := by rwa [← Bool.not_eq_true, charsOK_iff_legalString]
    exact .inl ⟨h, by rw [hexec, encodeTransaction_of_not_charsOK str s scheme hc]⟩

/-- Settles O28: the three outcomes have three different codes, and no operation is of a scheme and reserved. -/
theorem invalidInputWinsOverUnknownScheme : Obligations.InvalidInputWinsOverUnknownScheme := by
  intro s str i hi
  rcases exec_isEncode_cases hi s with ⟨hill, hexec⟩ | ⟨hlegal, hres, hexec⟩ | ⟨hlegal, e, rfl, hexec⟩
  · have hstatus : status 1#57 = 0b01#2 := by decide
    exact ⟨_, ⟨_, hexec, rfl⟩, by simp [hstatus, hill]⟩
  · have hstatus : status 2#57 = 0b10#2 := by decide
    have hscheme : ¬ ∃ e, i = encodeOf e str := by
      rintro ⟨e, rfl⟩
      exact encodeOf_ne_reserved e str hres
    exact ⟨_, ⟨_, hexec, rfl⟩, by simp [hstatus, hlegal, hres, hscheme]⟩
  · obtain ⟨hstatus, -⟩ := encodes_completeEncode e hlegal s
    have hscheme : ∃ e', encodeOf e str = encodeOf e' str := ⟨e, rfl⟩
    exact ⟨_, ⟨_, hexec, rfl⟩, by
      rw [hstatus]
      simp [hlegal, hscheme, encodeOf_ne_reserved e str]⟩

/-! What every response has (R72 to R74). -/

/-- A failed response has no level (R103). -/
theorem FailedWord.levelsProduced {r : RespWord} (h : FailedWord r) : LevelsProduced r := by
  unfold LevelsProduced
  rcases h with rfl | rfl <;> decide

/-- Settles O33: a failure has no level and another status, a success its run's levels and `00` beyond. -/
theorem responseHasTwoLevelsPerBit : Obligations.ResponseHasTwoLevelsPerBit := by
  intro s str i hi
  rcases exec_isEncode_cases hi s with ⟨-, hexec⟩ | ⟨-, -, hexec⟩ | ⟨hlegal, e, -, hexec⟩
  · have hfail : status 1#57 ≠ 0b00#2 := by decide
    exact ⟨_, ⟨_, hexec, rfl⟩, FailedWord.levelsProduced (.inl rfl), fun hok => absurd hok hfail⟩
  · have hfail : status 2#57 ≠ 0b00#2 := by decide
    exact ⟨_, ⟨_, hexec, rfl⟩, FailedWord.levelsProduced (.inr rfl), fun hok => absurd hok hfail⟩
  · obtain ⟨-, hcount, -, hbeyond, -⟩ := encodes_completeEncode e hlegal s
    exact ⟨_, ⟨_, hexec, rfl⟩, levelsProduced_completeEncode e str s (len_le_ten_of_legal hlegal),
      fun _ => ⟨hcount, hbeyond⟩⟩

/-- Settles O30: an ENCODE is one transaction, which sets `DONE` and leaves the rest alone. -/
theorem everyEncodeSetsDone : Obligations.EveryEncodeSetsDone := by
  intro s str i hi
  obtain ⟨scheme, hexec⟩ := exec_of_isEncode hi
  exact ⟨_, hexec s, encodeTransaction_done scheme str s, encodeTransaction_standalone scheme str s,
    encodeTransaction_ports scheme str s, encodeTransaction_reqLines scheme str s,
    encodeTransaction_host scheme str s⟩

/-! No state leaks between runs (R75, R76). -/

/-- The response is a failure code, or that of a run whose outputs do not depend on the registers it starts from. -/
theorem encodeTransaction_resp_indep (scheme : Option Scheme) (str : BitString) (s s' : State) :
    (encodeTransaction scheme str s).resp = (encodeTransaction scheme str s').resp := by
  rcases encodeTransaction_cases str s scheme with ⟨hc, h⟩ | ⟨hc, rfl, h⟩ | ⟨hc, e, rfl, h⟩
  · rw [h, encodeTransaction_of_not_charsOK str s' scheme hc]
    rfl
  · rw [h, encodeTransaction_none str s' hc]
    rfl
  · rw [h, encodeTransaction_some str s' e hc, completeEncode_resp, completeEncode_resp,
      runEncoder_outputs_indep e (inputBits str) s.instances s'.instances]

/-- Settles O41: both steps run the transaction of the same word, and its response depends on no state. -/
theorem responseDependsOnTheRequestAlone : Obligations.ResponseDependsOnTheRequestAlone := by
  intro s s' req rest rest'
  refine ⟨_, _, exec_request req { s with reqLines := req, host := rest },
    exec_request req { s' with reqLines := req, host := rest' }, encodeTransaction_resp_indep _ _ _ _, ?_⟩
  rw [encodeTransaction_done, encodeTransaction_done]

end Sys2Proof.Machine
end

section
/-! PROOFS. The NRZ-L encoder (41_nrz_l_encoder.md R86, R87): a STEP of its standalone block, and the laws of its
response. -/

namespace Sys2Proof.Machine

open Sys2Proof.Stated

/-! One STEP (R86). -/

theorem stepStandalone_nrzL (first b : Bit) (s : State) :
    stepStandalone .nrzL first b s = { s with ports := { s.ports with nrzL := ⟨code b, code b⟩ } } := by
  rw [← bitCode_eq_code]
  rfl

/-- Settles O11: the pair decodes to this block's STEP, which writes the outputs of this block alone. -/
theorem stepNrzLResult : Obligations.StepNrzLResult := fun s first b =>
  ⟨decode_step_append .nrzL first b,
    (exec_stepOf .nrzL first b s).trans (congrArg _ (stepStandalone_nrzL first b s))⟩

/-! The laws of the response (R87). -/

theorem code_inj : ∀ {a b : Bit}, code a = code b ↔ a = b := by decide

/-- The slot just before the first slot of bit `t` is the second slot of the bit before it (R57). -/
theorem level_before_of_encodes {r : RespWord} {str : BitString} {lv : Nat → LevelCode × LevelCode}
    (h : Encodes r str lv) {t : Nat} (hpos : 0 < t) (ht : t < str.len.toNat) :
    level r (2 * t - 1) = (lv (t - 1)).2 := by
  obtain ⟨-, -, hlevels, -, -⟩ := h
  have hslot : 2 * t - 1 = 2 * (t - 1) + 1 := by omega
  rw [hslot, (hlevels (t - 1) (by omega)).2]

/-- Settles O34: both slots of a bit hold its code, so the slots around the start of a bit differ exactly when the codes
of the two bits do. -/
theorem nrzLLaws : Obligations.NrzLLaws := by
  intro s str hlegal
  obtain ⟨r, hexec, hencodes⟩ := exec_encodeOf_encodes .nrzL hlegal s
  have hbefore := fun t => level_before_of_encodes hencodes (t := t)
  obtain ⟨-, -, hlevels, -, -⟩ := hencodes
  refine ⟨r, ⟨_, hexec, rfl⟩, fun t ht => ⟨(hlevels t ht).1, (hlevels t ht).2, fun hpos => ?_⟩⟩
  rw [(hlevels t ht).1, hbefore t hpos ht]
  exact not_congr code_inj

end Sys2Proof.Machine
end

section
/-! PROOFS. The NRZ-I encoder (42_nrz_i_encoder.md R88 to R90): a STEP of its standalone block, its first step, and the
laws of its response. -/

namespace Sys2Proof.Machine

open Sys2Proof.Stated

/-! One STEP (R88). -/

theorem stepStandalone_nrzI (first b : Bit) (s : State) :
    let l := if first = 1#1 then b else s.standalone.nrziLast ^^^ b
    stepStandalone .nrzI first b s = { s with
      standalone := { s.standalone with nrziLast := l }
      ports := { s.ports with nrzI := ⟨code l, code l⟩ } } := by
  intro l
  rw [← bitCode_eq_code]
  rfl

/-- Settles O12: the pair decodes to this block's STEP, which writes this block's register and outputs alone. -/
theorem stepNrzIResult : Obligations.StepNrzIResult := fun s first b =>
  ⟨decode_step_append .nrzI first b,
    (exec_stepOf .nrzI first b s).trans (congrArg _ (stepStandalone_nrzI first b s))⟩

/-! A first step (R29, R89). -/

/-- A first STEP of a block is a general STEP with the block's register at its reset value. -/
theorem stepStandalone_first (e : Scheme) (b : Bit) (s : State) :
    stepStandalone e 0#1 b (s.setStandalone (s.standalone.restart e)) = stepStandalone e 1#1 b s := by
  simp only [stepStandalone, encoderStep_first]
  rfl

/-- Where the register is at its reset value already, the two STEPs are the same. -/
theorem stepStandalone_first_of_restart_eq {e : Scheme} {s : State} (h : s.standalone.restart e = s.standalone)
    (b : Bit) : stepStandalone e 0#1 b s = stepStandalone e 1#1 b s := by
  rw [← stepStandalone_first, h]
  rfl

/-- Settles O17: the reset value of `nrzi_last` is 0. -/
theorem nrzIFirstStepIsAStepFromZero : Obligations.NrzIFirstStepIsAStepFromZero := by
  intro s b
  refine ⟨_, exec_stepOf .nrzI 1#1 b s, ?_, fun hzero => ?_⟩
  · rw [← stepStandalone_first]
    exact exec_stepOf .nrzI 0#1 b _
  · have hrestart : s.standalone.restart .nrzI = s.standalone := by rw [EncoderRegs.restart, ← hzero]
    rw [← stepStandalone_first_of_restart_eq hrestart]
    exact exec_stepOf .nrzI 0#1 b s

/-! Inverting characters (R51, R52). -/

/-- Inverting bit 0 of a binary character gives the other one. -/
theorem map_flip_of_binary {c : Option Byte} (h : c = some 0x30#8 ∨ c = some 0x31#8) :
    (c.map (· ^^^ 0x01#8) = some 0x30#8 ∧ c = some 0x31#8) ∨
      (c.map (· ^^^ 0x01#8) = some 0x31#8 ∧ c = some 0x30#8) := by
  rcases h with rfl | rfl
  · exact .inr ⟨rfl, rfl⟩
  · exact .inl ⟨rfl, rfl⟩

theorem flipChar_chars_getElem? (str : BitString) (u t : Nat) :
    (flipChar str u).chars[t]? = if u = t then str.chars[t]?.map (· ^^^ 0x01#8) else str.chars[t]? := by
  rw [flipChar, List.getElem?_modify]
  split
  · rfl
  · exact Option.map_id'

theorem legalString_flipChar {str : BitString} (h : LegalString str) (u : Nat) :
    LegalString (flipChar str u) := by
  obtain ⟨hmin, hmax, hchars⟩ := h
  refine ⟨hmin, hmax, fun t ht => ?_⟩
  rw [flipChar_chars_getElem?]
  split
  · exact (map_flip_of_binary (hchars t ht)).imp And.left And.left
  · exact hchars t ht

/-- Inverting character `u` inverts `b_u` and no other bit. -/
theorem bit_flipChar {str : BitString} (h : LegalString str) (u : Nat) {t : Nat} (ht : t < str.len.toNat) :
    bit (flipChar str u) t = bit str t ^^^ if u = t then 1#1 else 0#1 := by
  obtain ⟨-, -, hchars⟩ := h
  rw [bit, bit, flipChar_chars_getElem?]
  split
  · rcases map_flip_of_binary (hchars t ht) with ⟨hflip, hc⟩ | ⟨hflip, hc⟩ <;> rw [hflip, hc] <;> decide
  · exact BitVec.xor_zero.symm

/-! The levels of a run (R78, R90). -/

/-- The level of bit `t` is the exclusive or of the bits up to `t`. -/
theorem nrziLevel_eq_foldl (str : BitString) (t : Nat) :
    nrziLevel str t = ((List.range (t + 1)).map (bit str)).foldl (· ^^^ ·) 0#1 := by
  induction t with
  | zero => exact BitVec.zero_xor.symm
  | succ t ih =>
    rw [nrziLevel, ih, List.range_succ (n := t + 1), List.map_append, List.foldl_append]
    rfl

/-- The inversion of one bit is carried along the chain from that bit on. -/
theorem nrziLevel_flipChar {str : BitString} (h : LegalString str) (u : Nat) {t : Nat}
    (ht : t < str.len.toNat) :
    nrziLevel (flipChar str u) t = nrziLevel str t ^^^ if u ≤ t then 1#1 else 0#1 := by
  induction t with
  | zero => simp only [nrziLevel, bit_flipChar h u ht, Nat.le_zero]
  | succ t ih =>
    have hcarry : (if u ≤ t then 1#1 else 0#1) ^^^ (if u = t + 1 then 1#1 else 0#1) =
        if u ≤ t + 1 then 1#1 else 0#1 := by
      rcases Nat.lt_trichotomy u (t + 1) with hlt | rfl | hgt
      · simp [Nat.le_of_lt_succ hlt, hlt.le, hlt.ne]
      · simp
      · simp [hgt.ne', hgt.not_ge, (Nat.lt_of_succ_lt hgt).not_ge]
    have hxor : ∀ a b c d : Bit, (a ^^^ b) ^^^ (c ^^^ d) = (a ^^^ c) ^^^ (b ^^^ d) := by decide
    rw [nrziLevel, nrziLevel, ih (by omega), bit_flipChar h u ht, hxor, hcarry]

/-! The laws of the response (R90). -/

/-- A scheme whose bits have one level each shows it in both slots of the bit. -/
theorem level_slot_of_encodes_both {r : RespWord} {str : BitString} {c : Nat → LevelCode}
    (h : Encodes r str fun t => both (c t)) {t : Nat} (ht : t < str.len.toNat) {k : Nat} (hk : k < 2) :
    level r (2 * t + k) = c t := by
  obtain ⟨-, -, hlevels, -, -⟩ := h
  obtain ⟨heven, hodd⟩ := hlevels t ht
  match k, hk with
  | 0, _ => exact heven
  | 1, _ => exact hodd

theorem code_ne_minusOne : ∀ b : Bit, code b ≠ 0b11#2 := by decide

/-- A bit's level differs from the one before it exactly at a `1`. -/
theorem code_nrziLevel_ne_before_iff (str : BitString) {t : Nat} (hpos : 0 < t) :
    code (nrziLevel str t) ≠ code (nrziLevel str (t - 1)) ↔ bit str t = 1#1 := by
  have hxor : ∀ a b : Bit, code (a ^^^ b) ≠ code a ↔ b = 1#1 := by decide
  cases t with
  | zero => exact absurd hpos (Nat.lt_irrefl 0)
  | succ t => exact hxor (nrziLevel str t) (bit str (t + 1))

/-- The level of bit `t` is kept exactly where the inverted bit `u` is a later one. -/
theorem code_nrziLevel_flipChar_eq_iff {str : BitString} (h : LegalString str) (u : Nat) {t : Nat}
    (ht : t < str.len.toNat) :
    code (nrziLevel (flipChar str u) t) = code (nrziLevel str t) ↔ t < u := by
  have hxor : ∀ a b : Bit, code (a ^^^ b) = code a ↔ b = 0#1 := by decide
  rw [nrziLevel_flipChar h u ht, hxor, ← Nat.not_le]
  split <;> simp [*]

/-- Settles O35: the response holds the chain of the string, and that of the string with one character inverted. -/
theorem nrzILaws : Obligations.NrzILaws := by
  intro s str hlegal
  obtain ⟨r, hexec, hencodes⟩ := exec_encodeOf_encodes .nrzI hlegal s
  have hslot : ∀ t < str.len.toNat, ∀ k < 2, level r (2 * t + k) = code (nrziLevel str t) :=
    fun t ht k hk => level_slot_of_encodes_both hencodes ht hk
  refine ⟨r, ⟨_, hexec, rfl⟩, fun t ht => ?_, fun u _ => ?_⟩
  · have heven : level r (2 * t) = code (nrziLevel str t) := hslot t ht 0 Nat.two_pos
    have hodd : level r (2 * t + 1) = code (nrziLevel str t) := hslot t ht 1 Nat.one_lt_two
    rw [← nrziLevel_eq_foldl, hodd, heven]
    refine ⟨rfl, rfl, fun hpos => ?_⟩
    rw [level_before_of_encodes hencodes hpos ht]
    exact code_nrziLevel_ne_before_iff str hpos
  · obtain ⟨r', hexec', hencodes'⟩ := exec_encodeOf_encodes .nrzI (legalString_flipChar hlegal u) s
    refine ⟨r', ⟨_, hexec', rfl⟩, fun t ht k hk => ?_⟩
    rw [level_slot_of_encodes_both hencodes' ht hk, hslot t ht k hk]
    exact ⟨code_nrziLevel_flipChar_eq_iff hlegal u ht, code_ne_minusOne _⟩

end Sys2Proof.Machine
end

section
/-! PROOFS. The Bipolar AMI encoder (43_bipolar_ami_encoder.md R91, R92): a STEP of its standalone block, and the laws of
its response, from those of any sequence of levels that alternates polarity. -/

namespace Sys2Proof.Machine

open Sys2Proof.Stated

/-! One STEP (R91). -/

/-- The pseudocode of R91 on register bits, where `-p` is the inverted bit. -/
theorem amiStep_eq : ∀ first b amiPol : Bit,
    let p := if first = 1#1 then 0#1 else amiPol
    let p' := if b = 1#1 then ~~~ p else p
    amiStep first b amiPol =
      (p', bothHalves (if b = 1#1 then (if p' = 1#1 then 0b01#2 else 0b11#2) else 0b00#2)) := by
  decide

theorem stepStandalone_ami (first b : Bit) (s : State) :
    let p := if first = 1#1 then 0#1 else s.standalone.amiPol
    let p' := if b = 1#1 then ~~~ p else p
    let out : LevelCode := if b = 1#1 then (if p' = 1#1 then 0b01#2 else 0b11#2) else 0b00#2
    stepStandalone .bipolarAMI first b s = { s with
      standalone := { s.standalone with amiPol := p' }
      ports := { s.ports with ami := ⟨out, out⟩ } } := by
  intro p p' out
  simp only [stepStandalone, encoderStep, amiStep_eq]
  rfl

/-- Settles O13: the pair decodes to this block's STEP, which writes this block's register and outputs alone. -/
theorem stepAmiResult : Obligations.StepAmiResult := fun s first b =>
  ⟨decode_step_append .bipolarAMI first b,
    (exec_stepOf .bipolarAMI first b s).trans (congrArg _ (stepStandalone_ami first b s))⟩

/-! Levels that alternate polarity (R92, R94). -/

/-- One more level of the alternation is that of its position. -/
theorem alternating_succ (n : Nat) :
    alternating (n + 1) = alternating n ++ [if n % 2 = 0 then 0b01#2 else 0b11#2] := by
  rw [alternating, List.range_succ, List.map_append]
  rfl

/-- A bit of an alternating scheme, `n` non-zero levels before it and `n'` up to it: level `0`, or the next level of the
alternation. -/
def AlternationStep (n n' : Nat) (c : LevelCode) : Prop :=
  (c = 0b00#2 ∧ n' = n) ∨ (c = (if n % 2 = 0 then 0b01#2 else 0b11#2) ∧ n' = n + 1)

section
variable {n : Nat → Nat} {lv : Nat → LevelCode}
variable (h0 : n 0 = 0) (hstep : ∀ t, AlternationStep (n t) (n (t + 1)) (lv t))
include h0 hstep

/-- Such a sequence's non-zero levels are the alternation from `+1`. -/
theorem filter_ne_zero_eq_alternating (k : Nat) :
    ((List.range k).map lv).filter (· ≠ 0b00#2) = alternating (n k) := by
  induction k with
  | zero => rw [h0]; rfl
  | succ k ih =>
    rw [List.range_succ, List.map_append, List.filter_append, ih]
    rcases hstep k with ⟨hlv, hn⟩ | ⟨hlv, hn⟩
    · simp [hlv, hn]
    · rw [hn, alternating_succ, ← hlv]
      have hne : lv k ≠ 0b00#2 := by rw [hlv]; split <;> decide
      simp [hne]

/-- Its levels cancel in pairs: the sum is 1 after `+1` and 0 after `-1`. -/
theorem sum_levels_eq_parity (k : Nat) :
    (((List.range k).map lv).map BitVec.toInt).sum = (n k % 2 : Nat) := by
  induction k with
  | zero => rw [h0]; rfl
  | succ k ih =>
    rw [List.range_succ, List.map_append, List.map_append, List.sum_append, ih]
    rcases hstep k with ⟨hlv, hn⟩ | ⟨hlv, hn⟩
    · simp [hlv, hn]
    · rcases Nat.mod_two_eq_zero_or_one (n k) with hpar | hpar
      · simp [hlv, hn, hpar, Nat.succ_mod_two_eq_one_iff.mpr hpar]
      · simp [hlv, hn, hpar, Nat.succ_mod_two_eq_zero_iff.mpr hpar]

end

/-! The laws of the response (R92). -/

theorem amiLevel_of_bit_zero {str : BitString} {t : Nat} (h : bit str t = 0#1) : amiLevel str t = 0b00#2 :=
  if_pos h

/-- A `0` has level `0`; a `1` has the next level of the alternation, which the `1`s before it count. -/
theorem amiLevel_alternationStep (str : BitString) (t : Nat) :
    AlternationStep (ones str t) (ones str (t + 1)) (amiLevel str t) := by
  rcases BitVec.eq_zero_or_eq_one (bit str t) with hb | hb
  · exact .inl ⟨amiLevel_of_bit_zero hb, by simp [ones, hb]⟩
  · exact .inr ⟨by simp [amiLevel, hb], by simp [ones, hb]⟩

/-- Settles O36: the first slots of the response are the scheme's levels, which alternate at the `1`s. -/
theorem amiLaws : Obligations.AmiLaws := by
  intro s str hlegal
  obtain ⟨r, hexec, hencodes⟩ := exec_encodeOf_encodes .bipolarAMI hlegal s
  obtain ⟨-, -, hlevels, -, -⟩ := hencodes
  refine ⟨r, ⟨_, hexec, rfl⟩, ?_⟩
  intro perBit
  have hperBit : perBit = (List.range str.len.toNat).map (amiLevel str) :=
    List.map_congr_left fun t ht => (hlevels t (List.mem_range.mp ht)).1
  rw [hperBit]
  refine ⟨filter_ne_zero_eq_alternating rfl (amiLevel_alternationStep str) _,
    sum_levels_eq_parity rfl (amiLevel_alternationStep str) _, fun t ht => ?_⟩
  obtain ⟨heven, hodd⟩ := hlevels t ht
  exact ⟨fun hb => heven.trans (amiLevel_of_bit_zero hb), hodd.trans heven.symm⟩

end Sys2Proof.Machine
end

section
/-! PROOFS. The Pseudoternary encoder (44_pseudoternary_encoder.md R93, R94): a STEP of its standalone block, and the laws
of its response, from those of Bipolar AMI on the inverted string. -/

namespace Sys2Proof.Machine

open Sys2Proof.Stated

/-! One STEP (R93). -/

theorem compl_eq_one_iff : ∀ b : Bit, ~~~ b = 1#1 ↔ b = 0#1 := by decide

theorem compl_eq_zero_iff : ∀ b : Bit, ~~~ b = 0#1 ↔ b = 1#1 := by decide

/-- The two blocks' pseudocode differs in which bit flips the polarity (R91, R93). -/
theorem ptStep_eq_amiStep_not : ∀ first b pol : Bit, ptStep first b pol = amiStep first (~~~ b) pol := by decide

theorem stepStandalone_pt (first b : Bit) (s : State) :
    let p := if first = 1#1 then 0#1 else s.standalone.ptPol
    let p' := if b = 0#1 then ~~~ p else p
    let out : LevelCode := if b = 0#1 then (if p' = 1#1 then 0b01#2 else 0b11#2) else 0b00#2
    stepStandalone .pseudoternary first b s = { s with
      standalone := { s.standalone with ptPol := p' }
      ports := { s.ports with pt := ⟨out, out⟩ } } := by
  intro p p' out
  simp only [stepStandalone, encoderStep, ptStep_eq_amiStep_not, amiStep_eq, compl_eq_one_iff]
  rfl

/-- Settles O14: the pair decodes to this block's STEP, which writes this block's register and outputs alone. -/
theorem stepPtResult : Obligations.StepPtResult := fun s first b =>
  ⟨decode_step_append .pseudoternary first b,
    (exec_stepOf .pseudoternary first b s).trans (congrArg _ (stepStandalone_pt first b s))⟩

/-! Inverting every character (R51, R52). -/

theorem flipAll_chars_getElem? (str : BitString) (t : Nat) :
    (flipAll str).chars[t]? = str.chars[t]?.map (· ^^^ 0x01#8) :=
  List.getElem?_map

section
variable {str : BitString} (h : LegalString str)
include h

theorem legalString_flipAll : LegalString (flipAll str) := by
  obtain ⟨hmin, hmax, hchars⟩ := h
  refine ⟨hmin, hmax, fun t ht => ?_⟩
  rw [flipAll_chars_getElem?]
  exact (map_flip_of_binary (hchars t ht)).imp And.left And.left

theorem bit_flipAll {t : Nat} (ht : t < str.len.toNat) : bit (flipAll str) t = ~~~ bit str t := by
  obtain ⟨-, -, hchars⟩ := h
  rw [bit, bit, flipAll_chars_getElem?]
  rcases map_flip_of_binary (hchars t ht) with ⟨hflip, hc⟩ | ⟨hflip, hc⟩ <;> rw [hflip, hc] <;> decide

theorem ones_flipAll {n : Nat} (hn : n ≤ str.len.toNat) : ones (flipAll str) n = zeros str n := by
  induction n with
  | zero => rfl
  | succ n ih => simp only [ones, zeros, ih (Nat.le_of_succ_le hn), bit_flipAll h hn, compl_eq_one_iff]

/-- R94 bit by bit: the `1`s that AMI counts in the inverted string are the `0`s of the string. -/
theorem amiLevel_flipAll {t : Nat} (ht : t < str.len.toNat) : amiLevel (flipAll str) t = ptLevel str t := by
  rw [amiLevel, ptLevel, ones_flipAll h ht.le, bit_flipAll h ht]
  simp only [compl_eq_zero_iff]

end

/-! The laws of the response (R94). -/

theorem ptLevel_of_bit_one {str : BitString} {t : Nat} (h : bit str t = 1#1) : ptLevel str t = 0b00#2 :=
  if_pos h

/-- Two successful responses for strings of one length agree in all twenty slots where their bits' sub-levels do. -/
theorem level_eq_of_encodes {r r' : RespWord} {str str' : BitString} {lv lv' : Nat → LevelCode × LevelCode}
    (h : Encodes r str lv) (h' : Encodes r' str' lv') (hlen : str.len = str'.len)
    (hlv : ∀ t < str.len.toNat, lv t = lv' t) {k : Nat} (hk : k < 20) : level r k = level r' k := by
  obtain ⟨-, -, hlevels, hbeyond, -⟩ := h
  obtain ⟨-, -, hlevels', hbeyond', -⟩ := h'
  rw [← hlen] at hlevels' hbeyond'
  rcases Nat.lt_or_ge k (2 * str.len.toNat) with hlt | hge
  · refine forall_slots_of_forall_bits (P := fun k => level r k = level r' k) (fun t ht => ?_) k hlt
    rw [(hlevels t ht).1, (hlevels t ht).2, (hlevels' t ht).1, (hlevels' t ht).2, hlv t ht]
    exact ⟨rfl, rfl⟩
  · rw [hbeyond k hk hge, hbeyond' k hk hge]

/-- Settles O37: the levels of the response are those of AMI on the inverted string, so they alternate at its `1`s,
which are the `0`s of the string. -/
theorem pseudoternaryLaws : Obligations.PseudoternaryLaws := by
  intro s str hlegal
  obtain ⟨r, hexec, hencodes⟩ := exec_encodeOf_encodes .pseudoternary hlegal s
  obtain ⟨r', hexec', hencodes'⟩ := exec_encodeOf_encodes .bipolarAMI (legalString_flipAll hlegal) s
  have hslots : ∀ k < 20, level r k = level r' k := fun k hk =>
    level_eq_of_encodes hencodes hencodes' rfl (fun t ht => congrArg both (amiLevel_flipAll hlegal ht).symm) hk
  obtain ⟨-, -, hlevels, -, -⟩ := hencodes
  refine ⟨r, ⟨_, hexec, rfl⟩, ?_, fun t ht hb => (hlevels t ht).1.trans (ptLevel_of_bit_one hb),
    r', ⟨_, hexec', rfl⟩, hslots⟩
  have hperBit : ((List.range str.len.toNat).map fun t => level r (2 * t)) =
      (List.range str.len.toNat).map (amiLevel (flipAll str)) :=
    List.map_congr_left fun t ht =>
      have hlt := List.mem_range.mp ht
      (hlevels t hlt).1.trans (amiLevel_flipAll hlegal hlt).symm
  rw [hperBit, ← ones_flipAll hlegal le_rfl]
  exact filter_ne_zero_eq_alternating rfl (amiLevel_alternationStep (flipAll str)) _

end Sys2Proof.Machine
end

section
/-! PROOFS. The Manchester encoder (45_manchester_encoder.md R95, R96): a STEP of its standalone block, and the laws of
its response. -/

namespace Sys2Proof.Machine

open Sys2Proof.Stated

/-! One STEP (R95). -/

theorem stepStandalone_man (first b : Bit) (s : State) :
    stepStandalone .manchester first b s = { s with
      ports := { s.ports with man := if b = 1#1 then ⟨0b01#2, 0b00#2⟩ else ⟨0b00#2, 0b01#2⟩ } } :=
  rfl

/-- Settles O15: the pair decodes to this block's STEP, which writes the outputs of this block alone. -/
theorem stepManResult : Obligations.StepManResult := fun s first b =>
  ⟨decode_step_append .manchester first b,
    (exec_stepOf .manchester first b s).trans (congrArg _ (stepStandalone_man first b s))⟩

/-! The laws of the response (R96). -/

/-- The two rows of the scheme's table as one: the bit, then its inverse (R81, R96). -/
theorem manLevels_eq_code (str : BitString) (t : Nat) :
    manLevels str t = (code (bit str t), code (~~~ bit str t)) := by
  have hrows : ∀ b : Bit, (if b = 1#1 then (0b01#2, 0b00#2) else (0b00#2, 0b01#2)) = (code b, code (~~~ b)) := by
    decide
  exact hrows (bit str t)

theorem code_ne_code_compl_iff : ∀ {a b : Bit}, code a ≠ code (~~~ b) ↔ a = b := by decide

/-- Settles O38: the second slot of a bit is the inverse of the first, so it differs from the first slot of any bit
exactly when that bit is equal: of the same bit always, of the next bit when the two are equal. -/
theorem manchesterLaws : Obligations.ManchesterLaws := by
  intro s str hlegal
  obtain ⟨r, hexec, hencodes⟩ := exec_encodeOf_encodes .manchester hlegal s
  have hlv : schemeLevels .manchester str = fun t => (code (bit str t), code (~~~ bit str t)) :=
    funext (manLevels_eq_code str)
  rw [hlv] at hencodes
  have hbefore := fun t => level_before_of_encodes hencodes (t := t)
  obtain ⟨-, -, hlevels, -, -⟩ := hencodes
  refine ⟨r, ⟨_, hexec, rfl⟩, fun t ht => ?_⟩
  obtain ⟨hfirst, hsecond⟩ := hlevels t ht
  rw [hfirst, hsecond]
  refine ⟨rfl, rfl, code_ne_code_compl_iff.mpr rfl, fun hpos => ?_⟩
  rw [hbefore t hpos ht]
  exact code_ne_code_compl_iff

end Sys2Proof.Machine
end

section
/-! PROOFS. The Differential Manchester encoder (46_differential_manchester_encoder.md R97 to R101): a STEP of its
standalone block, its first step, the closed form of its response, and the laws of its response. -/

namespace Sys2Proof.Machine

open Sys2Proof.Stated

/-! One STEP (R97). -/

/-- The formulas of R97, which the statement about STEP writes out, are the model's `dmLevels`. -/
theorem stepStandalone_dm (first b : Bit) (s : State) :
    let l := dmLevels first b s.standalone.dmLast
    stepStandalone .differentialManchester first b s = { s with
      standalone := { s.standalone with dmLast := l.2 }
      ports := { s.ports with dm := ⟨code l.1, code l.2⟩ } } := by
  intro l
  rw [← bitCode_eq_code, ← bitCode_eq_code]
  rfl

/-- Settles O16: the pair decodes to this block's STEP, which writes this block's register and outputs alone. -/
theorem stepDmResult : Obligations.StepDmResult := fun s first b =>
  ⟨decode_step_append .differentialManchester first b,
    (exec_stepOf .differentialManchester first b s).trans (congrArg _ (stepStandalone_dm first b s))⟩

/-! A first step (R29, R98). -/

/-- Settles O18: the reset value of `dm_last` is 1. -/
theorem dmFirstStepIsAStepFromOne : Obligations.DmFirstStepIsAStepFromOne := by
  intro s b
  have hgeneral := exec_stepOf .differentialManchester 0#1 b
  refine ⟨_, exec_stepOf .differentialManchester 1#1 b s,
    (hgeneral _).trans (congrArg _ (stepStandalone_first .differentialManchester b s)), fun hone => ?_⟩
  have hrestart : s.standalone.restart .differentialManchester = s.standalone := by
    rw [EncoderRegs.restart, ← hone]
  exact (hgeneral s).trans (congrArg _ (stepStandalone_first_of_restart_eq hrestart b))

/-! The closed form of the response (R101). -/

theorem mod_two_eq_one_iff_parity (n : Nat) : n % 2 = 1 ↔ BitVec.ofNat 1 n = 1#1 := by
  rw [← BitVec.toNat_inj, BitVec.toNat_ofNat, BitVec.toNat_ofNat]

theorem code_compl : ∀ b : Bit, code (~~~ b) = if b = 1#1 then 0b00#2 else 0b01#2 := by decide

/-- Settles O40: the response holds the code of the parity of the zeros so far, then that of its inverse. -/
theorem differentialManchesterClosedForm : Obligations.DifferentialManchesterClosedForm := by
  intro s str hlegal
  obtain ⟨r, hexec, -, -, hlevels, -, -⟩ := exec_encodeOf_encodes .differentialManchester hlegal s
  refine ⟨r, ⟨_, hexec, rfl⟩, fun t ht => ?_⟩
  obtain ⟨hfirst, hsecond⟩ := hlevels t ht
  simp only [mod_two_eq_one_iff_parity]
  exact ⟨hfirst, hsecond.trans (code_compl _)⟩

/-! The laws of the response (R99, R100). -/

/-- No `0` comes before bit 0, so the inverted parity there is the bit itself. -/
theorem compl_dmParity_zero (str : BitString) : ~~~ dmParity str 0 = bit str 0 := by
  rw [dmParity, parity_zeros_succ, zeros, BitVec.zero_xor, BitVec.not_not]

/-- A `1` keeps the parity of the zeros, a `0` changes it. -/
theorem dmParity_eq_before_iff (str : BitString) {t : Nat} (hpos : 0 < t) :
    dmParity str t = dmParity str (t - 1) ↔ bit str t = 1#1 := by
  have hxor : ∀ p b : Bit, p ^^^ ~~~ b = p ↔ b = 1#1 := by decide
  rw [dmParity, dmParity, Nat.sub_add_cancel hpos, parity_zeros_succ]
  exact hxor _ _

theorem code_eq_zero_or_plusOne : ∀ b : Bit, code b = 0b00#2 ∨ code b = 0b01#2 := by decide

/-- Settles O39: the levels of a bit are the parity of the zeros so far and its inverse, so each law says whether the
parities of two bits are equal: of the same bit always, of a bit and the one before it exactly at a `1`. -/
theorem differentialManchesterLaws : Obligations.DifferentialManchesterLaws := by
  intro s str hlegal
  obtain ⟨r, hexec, hencodes⟩ := exec_encodeOf_encodes .differentialManchester hlegal s
  have hbefore := fun t => level_before_of_encodes hencodes (t := t)
  obtain ⟨-, -, hlevels, -, -⟩ := hencodes
  refine ⟨r, ⟨_, hexec, rfl⟩, ?_, fun t ht => ?_⟩
  · rw [← compl_dmParity_zero]
    exact (hlevels 0 (len_pos_of_legal hlegal)).2
  · obtain ⟨hfirst, hsecond⟩ := hlevels t ht
    rw [hfirst, hsecond]
    refine ⟨code_ne_code_compl_iff.mpr rfl, code_eq_zero_or_plusOne _, code_eq_zero_or_plusOne _,
      fun hpos => ?_, fun hpos => ?_⟩ <;> rw [hbefore t hpos ht]
    · exact (code_inj.trans BitVec.not_inj).trans (dmParity_eq_before_iff str hpos)
    · exact code_ne_code_compl_iff.trans (dmParity_eq_before_iff str hpos)

end Sys2Proof.Machine
end

section
/-! PROOFS. The failures of an ENCODE (60_exceptions.md R102 to R106): no operation stops the machine, a failed request
writes its error response and `DONE` alone, and nothing else writes an error response. -/

namespace Sys2Proof.Machine

open Sys2Proof.Stated

/-! Completion (R102, R127). -/

/-- Settles O48: an operation is an ENCODE transaction, a STEP or RESET, and each answers a next state. -/
theorem everyOperationCompletes : Obligations.EveryOperationCompletes := exec_completes

/-! Which operation writes which response (R103 to R106). -/

/-- Every operation is an ENCODE of some operand fields, a STEP of some block, or RESET. -/
theorem instr_cases (i : Instr) :
    (∃ str, IsEncode i str) ∨ (∃ e first b, i = stepOf e first b) ∨ i = .reset := by
  cases i with
  | encodeNrzL str => exact .inl ⟨str, .inl ⟨.nrzL, rfl⟩⟩
  | encodeNrzI str => exact .inl ⟨str, .inl ⟨.nrzI, rfl⟩⟩
  | encodeAmi str => exact .inl ⟨str, .inl ⟨.bipolarAMI, rfl⟩⟩
  | encodePt str => exact .inl ⟨str, .inl ⟨.pseudoternary, rfl⟩⟩
  | encodeMan str => exact .inl ⟨str, .inl ⟨.manchester, rfl⟩⟩
  | encodeDm str => exact .inl ⟨str, .inl ⟨.differentialManchester, rfl⟩⟩
  | encodeReserved110 str => exact .inl ⟨str, .inr (.inl rfl)⟩
  | encodeReserved111 str => exact .inl ⟨str, .inr (.inr rfl)⟩
  | stepNrzL f b => exact .inr (.inl ⟨.nrzL, f, b, rfl⟩)
  | stepNrzI f b => exact .inr (.inl ⟨.nrzI, f, b, rfl⟩)
  | stepAmi f b => exact .inr (.inl ⟨.bipolarAMI, f, b, rfl⟩)
  | stepPt f b => exact .inr (.inl ⟨.pseudoternary, f, b, rfl⟩)
  | stepMan f b => exact .inr (.inl ⟨.manchester, f, b, rfl⟩)
  | stepDm f b => exact .inr (.inl ⟨.differentialManchester, f, b, rfl⟩)
  | reset => exact .inr (.inr rfl)

/-- All an operation can do to `RESP`: keep it (STEP), leave a word of `STATUS` `00` (RESET and a successful ENCODE), or
write one of the two error responses, each for the one cause it has. -/
theorem exec_resp_cases {i : Instr} {s t : State} (h : exec i s = .next t) :
    t.resp = s.resp ∨ respStatus t.resp = 0b00#2 ∨
    (t.resp = 1#57 ∧ ∃ str, IsEncode i str ∧ ¬ LegalString str) ∨
    (t.resp = 2#57 ∧ ∃ str, LegalString str ∧ (i = .encodeReserved110 str ∨ i = .encodeReserved111 str)) := by
  rcases instr_cases i with ⟨str, hi⟩ | ⟨e, first, b, rfl⟩ | rfl
  · rcases exec_isEncode_cases hi s with ⟨hill, hexec⟩ | ⟨hlegal, hres, hexec⟩ | ⟨hlegal, e, -, hexec⟩ <;>
      cases hexec.symm.trans h
    · exact .inr (.inr (.inl ⟨rfl, str, hi, hill⟩))
    · exact .inr (.inr (.inr ⟨rfl, str, hlegal, hres⟩))
    · exact .inr (.inl (respStatus_okResponse _ _ _))
  · cases (exec_stepOf e first b s).symm.trans h
    exact .inl rfl
  · have hreset : exec .reset s = .next (resetRegisters s) := rfl
    cases hreset.symm.trans h
    exact .inr (.inl rfl)

/-- Settles O25: a legal string fails by its reserved code; of all that writes `RESP`, only that leaves the word 2. -/
theorem reservedSchemeGivesUnknownScheme : Obligations.ReservedSchemeGivesUnknownScheme := by
  refine ⟨fun s str h => ⟨exec_reserved_of_legal (.inl rfl) h s, exec_reserved_of_legal (.inr rfl) h s⟩,
    fun i s t h hresp => ?_⟩
  rcases exec_resp_cases h with hkeep | hok | ⟨hinvalid, -⟩ | ⟨-, hcause⟩
  · exact .inl (hkeep.symm.trans hresp)
  · exact absurd (.inr hresp) (not_failedWord_of_ok hok)
  · exact absurd (hinvalid.symm.trans hresp) (by decide)
  · exact .inr hcause

/-- An illegal string fails whatever the scheme code (R66, R105). -/
theorem exec_isEncode_of_illegal {i : Instr} {str : BitString} (hi : IsEncode i str) (h : ¬ LegalString str)
    (s : State) : exec i s = .next (s.answer 1#57) := by
  rcases exec_isEncode_cases hi s with ⟨-, hexec⟩ | ⟨hlegal, -⟩ | ⟨hlegal, -⟩
  · exact hexec
  · exact absurd hlegal h
  · exact absurd hlegal h

/-- Settles O26: the check of the string comes first; of all that writes `RESP`, only its failure leaves the word 1. -/
theorem illegalStringGivesInvalidInput : Obligations.IllegalStringGivesInvalidInput := by
  refine ⟨fun s str i hi h => exec_isEncode_of_illegal hi h s, fun i s t h hresp => ?_⟩
  rcases exec_resp_cases h with hkeep | hok | ⟨-, hcause⟩ | ⟨hunknown, -⟩
  · exact .inl (hkeep.symm.trans hresp)
  · exact absurd (.inl hresp) (not_failedWord_of_ok hok)
  · exact .inr hcause
  · exact absurd (hunknown.symm.trans hresp) (by decide)

/-- Settles O27: both failures answer with `failedResponse`, the fields of `STATUS` and nothing else. -/
theorem failedEncodeWritesOnlyTheErrorResponse : Obligations.FailedEncodeWritesOnlyTheErrorResponse := by
  intro s str i hi hfail
  by_cases hlegal : LegalString str
  · have hexec := exec_reserved_of_legal (hfail.resolve_left (not_not_intro hlegal)) hlegal s
    rw [← failedResponse_unknownScheme] at hexec
    exact ⟨0b10#2, .inr rfl, by simp [hlegal], hexec⟩
  · have hexec := exec_isEncode_of_illegal hi hlegal s
    rw [← failedResponse_invalidInput] at hexec
    exact ⟨0b01#2, .inl rfl, by simp [hlegal], hexec⟩

end Sys2Proof.Machine
end

section
/-! PROOFS. What the host does while an ENCODE runs (70_reset_and_hazards.md R118 to R123): a RESET abandons it, another
ENCODE is refused, and every other step completes. -/

namespace Sys2Proof.Machine

/-! RESET during a transaction (R118, R120). -/

theorem step_resetDuringEncode (s : State) (rest : List HostAction) :
    step (s.setHost (.resetDuringEncode :: rest)) = .next (resetRegisters (s.setHost rest)) := rfl

/-- Settles O10: a RESET during a transaction is issued as any other, and `resetRegisters` is all it does. -/
theorem resetDuringEncodeAbandonsIt : Obligations.ResetDuringEncodeAbandonsIt := fun s rest =>
  ⟨_, step_resetDuringEncode s rest, rfl, resetRegisters_done _, resetRegisters_resp _,
    resetRegisters_standalone _, resetRegisters_instances _⟩

/-! The one refusal (R123). -/

theorem step_encodeOverlapped {s : State} (h : ∃ rest, s.host = .encodeOverlapped :: rest) :
    step s = .refused .overlappingEncode := by
  obtain ⟨rest, hhost⟩ := h
  rw [step, nextAction, hhost]

/-- A step with any other action before it takes it up or runs an operation, which completes. -/
theorem step_completes {s : State} (h : ¬ ∃ rest, s.host = .encodeOverlapped :: rest) :
    ∃ t, step s = .next t := by
  rcases step_cases s with ⟨-, hs⟩ | ⟨w, rest, -, hs⟩ | ⟨rest, -, hs⟩ | ⟨e, x, rest, -, hs⟩ |
    ⟨rest, -, hs⟩ | ⟨rest, hhost, -⟩
  · exact ⟨_, hs⟩
  · exact ⟨_, hs⟩
  · rw [hs]
    exact exec_completes _ _
  · rw [hs]
    exact exec_completes _ _
  · exact ⟨_, hs⟩
  · exact absurd ⟨rest, hhost⟩ h

/-- Settles O49: the overlap is refused by its name, and a step that completes is not refused. -/
theorem onlyOverlappingEncodesAreRefused : Obligations.OnlyOverlappingEncodesAreRefused := by
  refine fun s => ⟨fun r => ⟨fun hr => ?_, fun ⟨hname, hover⟩ => hname ▸ step_encodeOverlapped hover⟩,
    step_completes⟩
  by_cases hover : ∃ rest, s.host = .encodeOverlapped :: rest
  · cases (step_encodeOverlapped hover).symm.trans hr
    exact ⟨rfl, hover⟩
  · obtain ⟨t, ht⟩ := step_completes hover
    cases ht.symm.trans hr

end Sys2Proof.Machine
end
